-- ==== Sys2Proof/Word.lean ====
section
/-! DEFINITION. The word types of the Keccak sponge core (spec/00_scope.md R6, R7): bytes, 32-bit command words,
64-bit lanes and port data, and the file of 25 lanes. -/

namespace Sys2Proof

/-- One byte: a state byte, an 8-bit register, a field of the command word (R7). -/
abbrev Byte := BitVec 8

/-- The command word `cmd_word` (R7, R103). -/
abbrev Word32 := BitVec 32

/-- `cmd_data`, `rsp_data`, `STATUS` and `CTX` (R7, R41, R42). -/
abbrev Word64 := BitVec 64

/-- One lane of the state (R6). -/
abbrev Lane := BitVec 64

/-- The lane file `A[0]` to `A[24]`: always exactly 25 lanes (spec/10_state.md R30). -/
abbrev Lanes := Vector Lane 25

end Sys2Proof
end

