-- ==== Sys2Proof/Syntax.lean ====
section
/-! DEFINITION. The commands of the core as syntax (spec/30_encoding.md R103, R107): one constructor of `Instr` for each
row of the opcode table, carrying the fields the command uses and the data operand where it reads one. -/

namespace Sys2Proof

/-- The command a host offers: `cmd_word` and `cmd_data` (R103). -/
structure Command where
  word : Word32
  data : Word64
deriving DecidableEq, Repr

/-- The fourteen opcodes of R107. -/
inductive Op where
  | nop | clear | readStatus | readCtx | setCtx
  | initVariant | initCustom
  | absorbByte | absorbN | finalize
  | squeezeN
  | permute | laneWrite | laneRead
deriving DecidableEq, Repr

/-- A decoded command. Operands are raw 8-bit fields and the raw data word: an operand out of its range (R105) still
decodes, and the command then raises BAD_OPERAND. -/
inductive Instr where
  /-- NOP, R260. -/
  | nop
  /-- CLEAR, R261. -/
  | clear
  /-- READ_STATUS, R262. -/
  | readStatus
  /-- READ_CTX, R263. -/
  | readCtx
  /-- SET_CTX, R264: the context word is `cmd_data`. -/
  | setCtx (ctx : Word64)
  /-- INIT_VARIANT, R203: the variant id is `ARG`. -/
  | initVariant (id : Byte)
  /-- INIT_CUSTOM, R204: the delimiter is `ARG`, the rate `IDX`. -/
  | initCustom (delim rate : Byte)
  /-- ABSORB_BYTE, R211: the byte is `ARG`. -/
  | absorbByte (b : Byte)
  /-- ABSORB_N, R212: the count is `IDX`, the bytes are those of `cmd_data`. -/
  | absorbN (n : Byte) (data : Word64)
  /-- FINALIZE, R221. -/
  | finalize
  /-- SQUEEZE_N, R231: the count is `IDX`. -/
  | squeezeN (n : Byte)
  /-- PERMUTE, R160. -/
  | permute
  /-- LANE_WRITE, R161: the lane index is `IDX`, the value `cmd_data`. -/
  | laneWrite (i : Byte) (value : Word64)
  /-- LANE_READ, R162: the lane index is `IDX`. -/
  | laneRead (i : Byte)
deriving DecidableEq, Repr

/-- The opcode of a command. -/
def Instr.op : Instr → Op
  | .nop => .nop
  | .clear => .clear
  | .readStatus => .readStatus
  | .readCtx => .readCtx
  | .setCtx _ => .setCtx
  | .initVariant _ => .initVariant
  | .initCustom _ _ => .initCustom
  | .absorbByte _ => .absorbByte
  | .absorbN _ _ => .absorbN
  | .finalize => .finalize
  | .squeezeN _ => .squeezeN
  | .permute => .permute
  | .laneWrite _ _ => .laneWrite
  | .laneRead _ => .laneRead

end Sys2Proof
end

