-- ==== Sys2Proof/WellFormed.lean ====
section
/-! DEFINITION. The legal operand ranges of spec/30_encoding.md R105. A command outside them is still a command: it
decodes, and its meaning raises BAD_OPERAND (log entry 16). -/

namespace Sys2Proof

/-- Every used field is in its legal range (the table of R105). -/
def Instr.wellFormed : Instr → Bool
  | .initVariant id => id.toNat ≤ 9
  | .initCustom _ rate => 1 ≤ rate.toNat && rate.toNat ≤ 200
  | .absorbN n _ => n.toNat ≤ 8
  | .squeezeN n => n.toNat ≤ 8
  | .laneWrite i _ => i.toNat ≤ 24
  | .laneRead i => i.toNat ≤ 24
  | .nop => true
  | .clear => true
  | .readStatus => true
  | .readCtx => true
  | .setCtx _ => true
  | .absorbByte _ => true
  | .finalize => true
  | .permute => true

end Sys2Proof
end

