-- ==== Sys2Proof/Decode.lean ====
section
/-! DEFINITION. Decoding (spec/30_encoding.md R103, R105, R107, R108), total on every word, and after it the encoder,
written from the same opcode table. -/

namespace Sys2Proof

/-- The opcode map of R107: the `OP` value of each command. -/
def Op.code : Op → Byte
  | .nop => 0x00#8
  | .clear => 0x01#8
  | .readStatus => 0x02#8
  | .readCtx => 0x03#8
  | .setCtx => 0x04#8
  | .initVariant => 0x10#8
  | .initCustom => 0x11#8
  | .absorbByte => 0x20#8
  | .absorbN => 0x21#8
  | .finalize => 0x28#8
  | .squeezeN => 0x30#8
  | .permute => 0x40#8
  | .laneWrite => 0x41#8
  | .laneRead => 0x42#8

/-- Column "uses `ARG`" of R107. -/
def Op.usesArg : Op → Bool
  | .initVariant => true
  | .initCustom => true
  | .absorbByte => true
  | .nop => false
  | .clear => false
  | .readStatus => false
  | .readCtx => false
  | .setCtx => false
  | .absorbN => false
  | .finalize => false
  | .squeezeN => false
  | .permute => false
  | .laneWrite => false
  | .laneRead => false

/-- Column "uses `IDX`" of R107. -/
def Op.usesIdx : Op → Bool
  | .initCustom => true
  | .absorbN => true
  | .squeezeN => true
  | .laneWrite => true
  | .laneRead => true
  | .nop => false
  | .clear => false
  | .readStatus => false
  | .readCtx => false
  | .setCtx => false
  | .initVariant => false
  | .absorbByte => false
  | .finalize => false
  | .permute => false

/-- Column "reads `cmd_data`" of R107 (R106). -/
def Op.readsData : Op → Bool
  | .setCtx => true
  | .absorbN => true
  | .laneWrite => true
  | .nop => false
  | .clear => false
  | .readStatus => false
  | .readCtx => false
  | .initVariant => false
  | .initCustom => false
  | .absorbByte => false
  | .finalize => false
  | .squeezeN => false
  | .permute => false
  | .laneRead => false

/-- The rows of R107, in its order. -/
def Op.all : List Op :=
  [.nop, .clear, .readStatus, .readCtx, .setCtx, .initVariant, .initCustom, .absorbByte, .absorbN, .finalize,
   .squeezeN, .permute, .laneWrite, .laneRead]

/-- The opcode an `OP` byte names; none for the 242 unassigned values (R108). -/
def Op.ofCode (b : Byte) : Option Op := Op.all.find? fun o => o.code == b

/-- `OP`, bits `[7:0]` of the command word (R103). -/
def Command.op (c : Command) : Byte := c.word.extractLsb' 0 8

/-- `ARG`, bits `[15:8]` (R103). -/
def Command.arg (c : Command) : Byte := c.word.extractLsb' 8 8

/-- `IDX`, bits `[23:16]` (R103). -/
def Command.idx (c : Command) : Byte := c.word.extractLsb' 16 8

/-- `RSV`, bits `[31:24]` (R103). -/
def Command.rsv (c : Command) : Byte := c.word.extractLsb' 24 8

/-- Why a word is no command (R108). -/
inductive DecodeError where
  /-- `OP` is unassigned. -/
  | illegalOpcode
  /-- `RSV`, or a field the command does not use, is not 0. -/
  | reservedField
deriving DecidableEq, Repr

/-- The command with this opcode and these fields. A field the opcode does not use is dropped, so `decode` checks it
first; a data operand it does not read is dropped unchecked (R106). -/
def Instr.ofFields (o : Op) (arg idx : Byte) (data : Word64) : Instr :=
  match o with
  | .nop => .nop
  | .clear => .clear
  | .readStatus => .readStatus
  | .readCtx => .readCtx
  | .setCtx => .setCtx data
  | .initVariant => .initVariant arg
  | .initCustom => .initCustom arg idx
  | .absorbByte => .absorbByte arg
  | .absorbN => .absorbN idx data
  | .finalize => .finalize
  | .squeezeN => .squeezeN idx
  | .permute => .permute
  | .laneWrite => .laneWrite idx data
  | .laneRead => .laneRead idx

/-- R108, its checks in its order. -/
def decode (c : Command) : Except DecodeError Instr :=
  match Op.ofCode c.op with
  | none => .error .illegalOpcode
  | some o =>
    if c.rsv ≠ 0#8 then .error .reservedField
    else if c.arg ≠ 0#8 ∧ o.usesArg = false then .error .reservedField
    else if c.idx ≠ 0#8 ∧ o.usesIdx = false then .error .reservedField
    else .ok (Instr.ofFields o c.arg c.idx c.data)

/-- The fully legal command word `OP | ARG << 8 | IDX << 16` of R107, `RSV` being 0. -/
def commandWord (o : Op) (arg idx : Byte) : Word32 := 0#8 ++ idx ++ arg ++ o.code

/-- The command of an instruction (R107; the assembled pair of R111): unused fields and an unread data operand are 0. -/
def encode : Instr → Command
  | .nop => { word := commandWord .nop 0#8 0#8, data := 0#64 }
  | .clear => { word := commandWord .clear 0#8 0#8, data := 0#64 }
  | .readStatus => { word := commandWord .readStatus 0#8 0#8, data := 0#64 }
  | .readCtx => { word := commandWord .readCtx 0#8 0#8, data := 0#64 }
  | .setCtx ctx => { word := commandWord .setCtx 0#8 0#8, data := ctx }
  | .initVariant id => { word := commandWord .initVariant id 0#8, data := 0#64 }
  | .initCustom delim rate => { word := commandWord .initCustom delim rate, data := 0#64 }
  | .absorbByte b => { word := commandWord .absorbByte b 0#8, data := 0#64 }
  | .absorbN n data => { word := commandWord .absorbN 0#8 n, data := data }
  | .finalize => { word := commandWord .finalize 0#8 0#8, data := 0#64 }
  | .squeezeN n => { word := commandWord .squeezeN 0#8 n, data := 0#64 }
  | .permute => { word := commandWord .permute 0#8 0#8, data := 0#64 }
  | .laneWrite i value => { word := commandWord .laneWrite 0#8 i, data := value }
  | .laneRead i => { word := commandWord .laneRead 0#8 i, data := 0#64 }

/-- The command whose bits are `w`, numbered as spec/opcode_table.json numbers them: `cmd_word` is bits 31 to 0 and
`cmd_data` the 64 bits above; only the low `nbits` bits of `w` count, and every bit above them is 0. -/
def tableCommand (nbits w : Nat) : Command :=
  let bits := w % 2 ^ nbits
  { word := BitVec.ofNat 32 bits, data := BitVec.ofNat 64 (bits / 2 ^ 32) }

/-- The instruction the decoder reads from a word of the opcode table. -/
def decodeTableWord (nbits w : Nat) : Option Instr :=
  match decode (tableCommand nbits w) with
  | .ok i => some i
  | .error _ => none

end Sys2Proof
end

