-- ==== Sys2Proof/Machine/Lanes.lean ====
section
/-! DEFINITION. The lane file and its two views: the 5 by 5 grid of spec/00_scope.md R10 and the 200 state bytes of
R11 and spec/20_memory.md R70, with the pseudocode primitives of R13 over both. Callers check an index before they use
it; outside the range a read gives 0 and a write does nothing. -/

namespace Sys2Proof.Machine

/-- `A[i]`, lane `i` of 0 to 24 (R13). -/
def Lanes.get (A : Lanes) (i : Nat) : Lane := A.toList.getD i 0#64

/-- `A[i] <- v` (R13). -/
def Lanes.put (A : Lanes) (i : Nat) (v : Lane) : Lanes := A.setIfInBounds i v

/-- All 25 lanes 0. -/
def Lanes.zero : Lanes := Vector.replicate 25 0#64

/-- `A[x,y] = A[x + 5*y]`, with index arithmetic modulo 5 (R10). -/
def Lanes.at (A : Lanes) (x y : Fin 5) : Lane := Lanes.get A (x.val + 5 * y.val)

/-- The lane file whose lane `A[x,y]` is `f x y`. -/
def Lanes.ofGrid (f : Fin 5 → Fin 5 → Lane) : Lanes :=
  #v[f 0 0, f 1 0, f 2 0, f 3 0, f 4 0,
     f 0 1, f 1 1, f 2 1, f 3 1, f 4 1,
     f 0 2, f 1 2, f 2 2, f 3 2, f 4 2,
     f 0 3, f 1 3, f 2 3, f 3 3, f 4 3,
     f 0 4, f 1 4, f 2 4, f 3 4, f 4 4]

/-- Bits `[8k+7 : 8k]` of a lane or data word. -/
def laneByte (w : Word64) (k : Nat) : Byte := w.extractLsb' (8 * k) 8

/-- The word with bits `[8k+7 : 8k]` replaced by `b` and no other bit changed. -/
def laneWithByte (w : Word64) (k : Nat) (b : Byte) : Word64 :=
  (w &&& ~~~(0xFF#64 <<< (8 * k))) ||| (b.zeroExtend 64 <<< (8 * k))

/-- `S[j] = A[j div 8][8*(j mod 8)+7 : 8*(j mod 8)]` for `j` in 0 to 199 (R11, R70). -/
def Lanes.byte (A : Lanes) (j : Nat) : Byte := laneByte (Lanes.get A (j / 8)) (j % 8)

/-- `S[j] <- b`: replaces exactly those eight bits of `A[j div 8]` (R11). -/
def Lanes.putByte (A : Lanes) (j : Nat) (b : Byte) : Lanes :=
  Lanes.put A (j / 8) (laneWithByte (Lanes.get A (j / 8)) (j % 8) b)

/-- `S[j] <- S[j] ^ b`, the access absorb and pad make (R75). -/
def Lanes.xorByte (A : Lanes) (j : Nat) (b : Byte) : Lanes := Lanes.putByte A j (Lanes.byte A j ^^^ b)

/-- `MemRead(j, n)`: the `8*n`-bit little-endian value `S[j+n-1] ... S[j]`, for `j + n <= 200` (R13). -/
def Lanes.memRead (A : Lanes) (j : Nat) : (n : Nat) → BitVec (8 * n)
  | 0 => 0#(8 * 0)
  | n + 1 =>
    (Lanes.memRead A j n).setWidth (8 * (n + 1)) ||| ((Lanes.byte A (j + n)).setWidth (8 * (n + 1)) <<< (8 * n))

/-- The first `n` bytes of a value written to `S[j]`, `S[j+1]`, and on, its lowest byte first. -/
def Lanes.putBytes {w : Nat} (A : Lanes) (j : Nat) (v : BitVec w) : Nat → Lanes
  | 0 => A
  | n + 1 => Lanes.putByte (Lanes.putBytes A j v n) (j + n) (v.extractLsb' (8 * n) 8)

/-- `MemWrite(j, n, v)`: `S[j+k] <- v[8k+7:8k]` for `k` in 0 to `n-1`, for `j + n <= 200` (R13). -/
def Lanes.memWrite (A : Lanes) (j n : Nat) (v : BitVec (8 * n)) : Lanes := Lanes.putBytes A j v n

end Sys2Proof.Machine
end

