-- ==== Sys2Proof/Machine/State.lean ====
section
/-! DEFINITION. The state of the core (spec/10_state.md), plain data, its fault and refusal reasons, and the state right
after reset (R51). -/

namespace Sys2Proof.Machine

/-- `PHASE` (R36): 0 IDLE, 1 ABSORB, 2 SQUEEZE. The value 3 is never held (D32), so it has no constructor (log entry 8). -/
inductive Phase where
  | idle
  | absorb
  | squeeze
deriving DecidableEq, Repr

/-- A response: `rsp_data` and `rsp_code` (spec/30_encoding.md R104). -/
structure Response where
  data : Word64
  code : Byte
deriving DecidableEq, Repr

/-- The running permutation engine (R47): the round counter `RND` and the working copies of the lanes. -/
structure Engine where
  rnd : Fin 24
  work : Lanes
deriving DecidableEq, Repr

/-- What the host drives and what it has taken (spec/30_encoding.md R100, R101, spec/70_reset_and_hazards.md R347).
No command writes it but through the handshake. The MODEL's own fields (log entry 2). -/
structure HostSide where
  /-- `rst`. -/
  rst : Bool
  /-- `rsp_ready`. -/
  rspReady : Bool
  /-- The commands the host goes on to offer, the first one on the port now; `cmd_valid` is 1 when there is one. -/
  offers : List Command
  /-- The responses delivered so far, oldest first: the observation of a run. -/
  taken : List Response
deriving DecidableEq, Repr

/-- Everything the spec gives the machine (the inventory table of spec/10_state.md). `CAP` is derived (R33). -/
structure State where
  /-- `A[0..24]` (R30). -/
  lanes : Lanes
  /-- `RATE` (R32). -/
  rate : Byte
  /-- `DELIM` (R34). -/
  delim : Byte
  /-- `OFFSET` (R35). -/
  offset : Byte
  /-- `PHASE` (R36). -/
  phase : Phase
  /-- `OUTLIM` (R37). -/
  outlim : Byte
  /-- `SQCNT` (R38). -/
  sqcnt : Byte
  /-- `ERR` (R39). -/
  err : Bool
  /-- `ERRCODE` (R39). -/
  errcode : Byte
  /-- `ERROP` (R39). -/
  errop : Byte
  /-- The engine (R47): none is idle, with the busy flag and `RND` 0. -/
  engine : Option Engine
  /-- The pending response (R48): none is no response pending. -/
  rsp : Option Response
  /-- The host's side of the port. -/
  host : HostSide
deriving DecidableEq, Repr

/-- Why the model stops. The core's own errors (spec/60_exceptions.md R300) are no faults: they are next states. -/
inductive Fault where
  /-- A byte offset outside `S[0..199]` (spec/20_memory.md R78). Raised by the byte accesses of absorb, pad and squeeze
  (`absorbByte`, `pad`, `squeezeByte`), in states that violate `Legal` (R49) alone. Safe: the spec gives such a byte no
  existence, and no run reaches such a state. -/
  | noSuchStateByte
deriving DecidableEq, Repr

/-- Why the model refuses an instruction. -/
inductive Refusal where
  /-- An arm of `exec` without a meaning. Safe. No arm raises it: every command has its meaning. -/
  | notModelled (mnemonic : String)
deriving DecidableEq, Repr

/-- The host's side at the start of a run: `rst` low, the host ready for responses, nothing offered, nothing taken.
DESIGN CHOICE: the spec gives the host's pins no reset value (log entry 2). -/
def HostSide.start : HostSide := { rst := false, rspReady := true, offers := [], taken := [] }

/-- The state right after reset: the column "after reset" of R51. -/
def State.reset : State where
  lanes := Vector.replicate 25 0#64
  rate := 0#8
  delim := 0#8
  offset := 0#8
  phase := .idle
  outlim := 0#8
  sqcnt := 0#8
  err := false
  errcode := 0x00#8
  errop := 0x00#8
  engine := none
  rsp := none
  host := HostSide.start

end Sys2Proof.Machine
end

