-- ==== Sys2Proof/Machine/Operands.lean ====
section
/-! DEFINITION. Operand forms: the bytes of the data operand and of the response word (spec/20_memory.md R71), the
fields of a context word (spec/10_state.md R42) with the checks of SET_CTX (spec/42_control.md R264), and the variant ROM
INIT_VARIANT reads (spec/41_sponge.md R201). -/

namespace Sys2Proof.Machine

/-- The first `n` bytes of a data operand: byte `k` is `cmd_data[8k+7:8k]` (R71). -/
def dataBytes (n : Nat) (data : Word64) : List Byte := (List.range n).map fun k => laneByte data k

/-- The response word that carries these bytes from byte `k` up, `v[8k+7:8k]` first, every other bit 0 (R71, R231). -/
def packFrom (k : Nat) : List Byte → Word64
  | [] => 0#64
  | b :: bs => laneWithByte (packFrom (k + 1) bs) k b

/-- The response word of squeezed bytes, the first in bits `[7:0]` (R71, R231). -/
def packBytes (bs : List Byte) : Word64 := packFrom 0 bs

/-- The code of a phase: 0 IDLE, 1 ABSORB, 2 SQUEEZE (R36). -/
def Phase.code : Phase → BitVec 2
  | .idle => 0#2
  | .absorb => 1#2
  | .squeeze => 2#2

/-- `CTX[7:0]` (R42). -/
def ctxRate (c : Word64) : Byte := c.extractLsb' 0 8

/-- `CTX[15:8]`. -/
def ctxDelim (c : Word64) : Byte := c.extractLsb' 8 8

/-- `CTX[23:16]`. -/
def ctxOffset (c : Word64) : Byte := c.extractLsb' 16 8

/-- `CTX[25:24]`. -/
def ctxPhase (c : Word64) : BitVec 2 := c.extractLsb' 24 2

/-- `CTX[31:26]`, reserved. -/
def ctxReservedLow (c : Word64) : BitVec 6 := c.extractLsb' 26 6

/-- `CTX[39:32]`. -/
def ctxOutlim (c : Word64) : Byte := c.extractLsb' 32 8

/-- `CTX[47:40]`. -/
def ctxSqcnt (c : Word64) : Byte := c.extractLsb' 40 8

/-- `CTX[55:48]`, reserved. -/
def ctxReservedHigh (c : Word64) : Byte := c.extractLsb' 48 8

/-- The phase SET_CTX may set: 1 is ABSORB, 2 is SQUEEZE; 0 and 3 are refused (R264). -/
def ctxNewPhase (c : Word64) : Option Phase :=
  if ctxPhase c = 1#2 then some .absorb else if ctxPhase c = 2#2 then some .squeeze else none

/-- The range checks of SET_CTX for a context whose phase is `ph`: none of them raises BAD_CONTEXT (R264). -/
def ctxInRange (c : Word64) (ph : Phase) : Bool :=
  ctxReservedLow c == 0#6 && ctxReservedHigh c == 0#8
    && (1 ≤ (ctxRate c).toNat && (ctxRate c).toNat ≤ 200)
    && (ph != .absorb || (ctxOffset c).toNat ≤ (ctxRate c).toNat - 1)
    && (ph != .squeeze || (ctxOffset c).toNat ≤ (ctxRate c).toNat)
    && (!(ctxOutlim c == 0#8 || ph == .absorb) || ctxSqcnt c == 0#8)
    && (ctxSqcnt c).toNat ≤ (ctxOutlim c).toNat

/-- The phase a context word restores, or none where SET_CTX raises BAD_CONTEXT (R264). The spec gives all its context
checks one code, so their order among themselves is not seen. -/
def ctxCheck (c : Word64) : Option Phase :=
  match ctxNewPhase c with
  | none => none
  | some ph => if ctxInRange c ph then some ph else none

/-- One row of the variant ROM: rate, delimiter, output limit (R201). -/
structure VariantRow where
  rate : Byte
  delim : Byte
  outlim : Byte
deriving DecidableEq, Repr

/-- `VARIANT[0..9]` (R201). -/
def variantTable : List VariantRow :=
  [ { rate := 168#8, delim := 0x1F#8, outlim := 0#8 },
    { rate := 136#8, delim := 0x1F#8, outlim := 0#8 },
    { rate := 144#8, delim := 0x01#8, outlim := 28#8 },
    { rate := 136#8, delim := 0x01#8, outlim := 32#8 },
    { rate := 104#8, delim := 0x01#8, outlim := 48#8 },
    { rate := 72#8, delim := 0x01#8, outlim := 64#8 },
    { rate := 144#8, delim := 0x06#8, outlim := 28#8 },
    { rate := 136#8, delim := 0x06#8, outlim := 32#8 },
    { rate := 104#8, delim := 0x06#8, outlim := 48#8 },
    { rate := 72#8, delim := 0x06#8, outlim := 64#8 } ]

/-- The ROM entry of a variant id; none for the ids 10 to 255, which INIT_VARIANT refuses (R203). -/
def variantRom (id : Byte) : Option VariantRow := variantTable[id.toNat]?

end Sys2Proof.Machine
end

