-- ==== Sys2Proof/Machine/Flags.lean ====
section
/-! DEFINITION. The core's only flag, `ERR`, with the latch it heads (spec/10_state.md R39, spec/60_exceptions.md R300,
R301), and the two words that show registers: `STATUS` (R41) and `CTX` (R42). No command has an arithmetic flag (R41). -/

namespace Sys2Proof.Machine

/-- The error codes of R300, without 0x00 (no error) and LOCKED (no error of the latch). -/
inductive ErrorCode where
  | illegalOpcode
  | reservedField
  | badOperand
  | notInitialised
  | absorbAfterFinalize
  | squeezeBeforeFinalize
  | finalizeTwice
  | outputLength
  | notIdle
  | badContext
deriving DecidableEq, Repr

/-- The code of each error (R300). -/
def ErrorCode.code : ErrorCode → Byte
  | .illegalOpcode => 0x01#8
  | .reservedField => 0x02#8
  | .badOperand => 0x03#8
  | .notInitialised => 0x04#8
  | .absorbAfterFinalize => 0x05#8
  | .squeezeBeforeFinalize => 0x06#8
  | .finalizeTwice => 0x07#8
  | .outputLength => 0x08#8
  | .notIdle => 0x09#8
  | .badContext => 0x0A#8

/-- `rsp_code` of a command that completed (R104). -/
def codeNone : Byte := 0x00#8

/-- `rsp_code` LOCKED (R300, R303). -/
def codeLocked : Byte := 0x0B#8

/-- The error a word that is no command raises (R108). -/
def decodeErrorCode : DecodeError → ErrorCode
  | .illegalOpcode => .illegalOpcode
  | .reservedField => .reservedField

/-- The latch: the first error is kept, a later one changes nothing (R39, R301). -/
def State.latch (s : State) (code op : Byte) : State :=
  if s.err then s else { s with err := true, errcode := code, errop := op }

/-- `CAP = 200 - RATE`, derived (R33). -/
def State.cap (s : State) : Byte := 200#8 - s.rate

/-- The status word (R41, R262). -/
def State.statusWord (s : State) : Word64 :=
  s.phase.code.zeroExtend 64 ||| ((BitVec.ofBool s.err).zeroExtend 64 <<< 2) ||| (s.errcode.zeroExtend 64 <<< 8)
    ||| (s.errop.zeroExtend 64 <<< 16)

/-- The context word (R42, R263). -/
def State.ctxWord (s : State) : Word64 :=
  s.rate.zeroExtend 64 ||| (s.delim.zeroExtend 64 <<< 8) ||| (s.offset.zeroExtend 64 <<< 16)
    ||| (s.phase.code.zeroExtend 64 <<< 24) ||| (s.outlim.zeroExtend 64 <<< 32) ||| (s.sqcnt.zeroExtend 64 <<< 40)
    ||| (s.cap.zeroExtend 64 <<< 56)

end Sys2Proof.Machine
end

