-- ==== Sys2Proof/Machine/Keccak.lean ====
section
/-! DEFINITION. The permutation engine's function: the tables and the five sub-steps of spec/40_permutation.md R140 to
R150, the fused rho-pi step of R148, and the generators of R148 and R149. -/

namespace Sys2Proof.Machine

/-- `ROTL64(w, n)` for `n` in 0 to 63 (spec/00_scope.md R12). -/
def rotl64 (w : Lane) (n : Nat) : Lane := if n = 0 then w else (w <<< n) ||| (w >>> (64 - n))

/-- The rotation table `ROT[0..24]` by lane index (R147). -/
def rotTable : List Nat :=
  [0, 1, 62, 28, 27,
   36, 44, 6, 55, 20,
   3, 10, 43, 25, 39,
   41, 45, 15, 21, 8,
   18, 2, 61, 56, 14]

/-- The round-constant ROM `RC[0..23]` (R146). -/
def rcTable : List Lane :=
  [0x0000000000000001#64, 0x0000000000008082#64, 0x800000000000808A#64, 0x8000000080008000#64,
   0x000000000000808B#64, 0x0000000080000001#64, 0x8000000080008081#64, 0x8000000000008009#64,
   0x000000000000008A#64, 0x0000000000000088#64, 0x0000000080008009#64, 0x000000008000000A#64,
   0x000000008000808B#64, 0x800000000000008B#64, 0x8000000000008089#64, 0x8000000000008003#64,
   0x8000000000008002#64, 0x8000000000000080#64, 0x000000000000800A#64, 0x800000008000000A#64,
   0x8000000080008081#64, 0x8000000000008080#64, 0x0000000080000001#64, 0x8000000080008008#64]

/-- `ROT[i]`. -/
def rot (i : Nat) : Nat := rotTable.getD i 0

/-- `RC[r]`. -/
def rc (r : Nat) : Lane := rcTable.getD r 0#64

/-- The column parity `C[x]` of theta (R141). -/
def thetaC (A : Lanes) (x : Fin 5) : Lane :=
  Lanes.at A x 0 ^^^ Lanes.at A x 1 ^^^ Lanes.at A x 2 ^^^ Lanes.at A x 3 ^^^ Lanes.at A x 4

/-- `D[x]` of theta (R141). -/
def thetaD (A : Lanes) (x : Fin 5) : Lane := thetaC A (x - 1) ^^^ rotl64 (thetaC A (x + 1)) 1

/-- Theta (R141). -/
def theta (A : Lanes) : Lanes := Lanes.ofGrid fun x y => Lanes.at A x y ^^^ thetaD A x

/-- Rho (R142). -/
def rho (A : Lanes) : Lanes := Lanes.ofGrid fun x y => rotl64 (Lanes.at A x y) (rot (x.val + 5 * y.val))

/-- Pi, in the form `pi(A)[x,y] = A[(x + 3*y) mod 5, x]` (R143). -/
def piStep (A : Lanes) : Lanes := Lanes.ofGrid fun x y => Lanes.at A (x + 3 * y) x

/-- Chi, every lane from the row's values before chi (R144). -/
def chi (A : Lanes) : Lanes :=
  Lanes.ofGrid fun x y => Lanes.at A x y ^^^ (~~~(Lanes.at A (x + 1) y) &&& Lanes.at A (x + 2) y)

/-- Iota: the round constant into lane 0 (R145). -/
def iota (A : Lanes) (r : Nat) : Lanes := Lanes.put A 0 (Lanes.get A 0 ^^^ rc r)

/-- One round (R140). -/
def round (A : Lanes) (r : Nat) : Lanes := iota (chi (piStep (rho (theta A)))) r

/-- Keccak-f[1600]: rounds 0 to 23 in order (R150). -/
@[irreducible] def keccakF1600 (A : Lanes) : Lanes := (List.range 24).foldl round A

/-- `Keccak-f^k`, `k` invocations one after another (spec/41_sponge.md R232). -/
def keccakPow : Nat → Lanes → Lanes
  | 0, A => A
  | k + 1, A => keccakF1600 (keccakPow k A)

/-! ### The tables and generators the spec gives beside them -/

/-- `PIDEST[i]`, where pi moves lane `i` (R143). -/
def piDest : List Nat := [0, 10, 20, 5, 15, 16, 1, 11, 21, 6, 7, 17, 2, 12, 22, 23, 8, 18, 3, 13, 14, 24, 9, 19, 4]

/-- `PISRC[k]`, the lane pi moves to `k` (R143). -/
def piSrc : List Nat := [0, 6, 12, 18, 24, 3, 9, 10, 16, 22, 1, 7, 13, 19, 20, 4, 5, 11, 17, 23, 2, 8, 14, 15, 21]

/-- `RHO`, the 24 rotations of the fused form (R148). -/
def fusedRho : List Nat := [1, 3, 6, 10, 15, 21, 28, 36, 45, 55, 2, 14, 27, 41, 56, 8, 25, 43, 62, 18, 39, 61, 20, 44]

/-- `PI`, the 24 destinations of the fused form (R148). -/
def fusedPi : List Nat := [10, 7, 11, 17, 18, 3, 5, 16, 8, 21, 24, 4, 15, 23, 19, 13, 12, 2, 20, 14, 22, 9, 6, 1]

/-- The chain of R148, from its current lane file and `last`, over the steps `(RHO[t], PI[t])` that remain. -/
def rhoPiChain : List (Nat × Nat) → Lanes → Lane → Lanes
  | [], A, _ => A
  | (r, p) :: ts, A, last => rhoPiChain ts (Lanes.put A p (rotl64 last r)) (Lanes.get A p)

/-- The fused rho-and-pi step (R148). -/
def rhoPi (A : Lanes) : Lanes := rhoPiChain (fusedRho.zip fusedPi) A (Lanes.get A 1)

/-- The walk of R148 that generates the rotation table: `n` steps from step `t` at `(x, y)`. -/
def rotWalk : Nat → Nat → Nat → Nat → List Nat → List Nat
  | 0, _, _, _, table => table
  | n + 1, t, x, y, table =>
    rotWalk n (t + 1) y ((2 * x + 3 * y) % 5) (table.set (x + 5 * y) (((t + 1) * (t + 2) / 2) % 64))

/-- The rotation table as R148 generates it. -/
def rotGenerated : List Nat := rotWalk 24 0 1 0 (List.replicate 25 0)

/-- One step of the register of R149, bits `R[0]` first: `R <- 0 || R`, the feedback of `R[8]`, `R <- R[0..7]`. -/
def lfsrStep : List Bool → List Bool
  | [r0, r1, r2, r3, r4, r5, r6, r7] => [false != r7, r0, r1, r2, r3 != r7, r4 != r7, r5 != r7, r6]
  | other => other

/-- The register after `n` steps from `10000000` (R149). -/
def lfsrAfter : Nat → List Bool
  | 0 => [true, false, false, false, false, false, false, false]
  | n + 1 => lfsrStep (lfsrAfter n)

/-- `rc(t)`: `R[0]` after `t mod 255` steps (R149; at a multiple of 255 that is 1). -/
def lfsrBit (t : Nat) : Bool := (lfsrAfter (t % 255)).headD false

/-- `RC[r]` as R149 generates it: bit `2^j - 1` is `rc(j + 7*r)` for `j` = 0 to 6, every other bit 0. -/
def rcGenerated (r : Nat) : Lane :=
  (List.range 7).foldl (fun v j => if lfsrBit (j + 7 * r) then v ||| (1#64 <<< (2 ^ j - 1)) else v) 0#64

end Sys2Proof.Machine
end

