-- ==== Sys2Proof/Machine/Ops.lean ====
section
/-! DEFINITION. The operations the commands share: completing (spec/00_scope.md R13), raising an error and the lock
(spec/60_exceptions.md R301, R303), the way out of an error (R307), the permutation engine (spec/40_permutation.md R150,
R152) and the byte steps of the sponge (spec/41_sponge.md R210, R220, R230). -/

namespace Sys2Proof.Machine

/-- What a command answers. -/
abbrev Result := Host.Outcome State Fault Refusal

/-- The response of the command is pending. -/
def State.answer (s : State) (data : Word64) (code : Byte) : State := { s with rsp := some { data := data, code := code } }

/-- `respond(v)`: the command completes (R13, R104). -/
def State.respond (s : State) (data : Word64) : State := s.answer data codeNone

/-- `raise Error(code)`, the one way an error is taken: the latch, then the response 0 with the code (R301). The command
ends with no other effect (R302). `op` is the `OP` field of the command. -/
def State.raise (s : State) (e : ErrorCode) (op : Byte) : State := (s.latch e.code op).answer 0#64 e.code

/-- A command of this opcode raises the error; `ERROP` is its opcode. -/
def raising (s : State) (e : ErrorCode) (o : Op) : Result := .next (s.raise e o.code)

/-- The last check of the prologue (R303, R304): while `ERR = 1` the command is not performed and answers LOCKED. -/
def State.unlocked (s : State) (performed : Result) : Result :=
  if s.err then .next (s.answer 0#64 codeLocked) else performed

/-- Every register, lane and latch bit at its reset value, the engine idle and no response pending; the host's side
stays as the host drives it (R51, R340). This is what reset does, and CLEAR before it responds (R261): the only two ways
out of an error (R307). -/
def State.cleared (s : State) : State := { State.reset with host := s.host }

/-- A byte step that failed because its byte does not exist stops the machine. -/
def finish (r : Except Fault State) (done : State → State) : Result :=
  match r with
  | .ok s => .next (done s)
  | .error f => .fault f

/-! ### The permutation engine -/

/-- The engine starts: busy, `RND` 0, working copies of the lanes (R47). -/
def State.engineStart (s : State) : State := { s with engine := some { rnd := 0, work := s.lanes } }

/-- One round of the reference engine: `RND` addresses the round constant; after round 23 the result replaces the lane
file and the engine is idle (R47, R152). Nothing happens in an idle engine. -/
def State.engineRound (s : State) : State :=
  match s.engine with
  | none => s
  | some e =>
    let work := round e.work e.rnd.val
    if h : e.rnd.val + 1 < 24 then { s with engine := some { rnd := ⟨e.rnd.val + 1, h⟩, work := work } }
    else { s with lanes := work, engine := none }

/-- Up to `n` rounds of the engine. -/
def State.engineRounds : Nat → State → State
  | 0, s => s
  | n + 1, s => State.engineRounds n s.engineRound

/-- `KeccakF()`: one invocation of the engine, 24 rounds (R150, R152). -/
def State.keccakF (s : State) : State := State.engineRounds 24 s.engineStart

/-! ### The sponge's byte steps -/

/-- `S[j] <- S[j] ^ b`, where that byte exists (R11, R78). -/
def State.xorByte (s : State) (j : Nat) (b : Byte) : Except Fault State :=
  if j < 200 then .ok { s with lanes := Lanes.xorByte s.lanes j b } else .error .noSuchStateByte

/-- `S[j]`, where that byte exists (R11, R78). -/
def State.readByte (s : State) (j : Nat) : Except Fault Byte :=
  if j < 200 then .ok (Lanes.byte s.lanes j) else .error .noSuchStateByte

/-- The end of `AbsorbByte`: `OFFSET` advances, and a full block is permuted at once (R210). -/
def State.blockAdvance (s : State) : State :=
  let s' := { s with offset := s.offset + 1#8 }
  if s'.offset = s'.rate then { s'.keccakF with offset := 0#8 } else s'

/-- `AbsorbByte(b)` (R210). -/
def absorbStep (b : Byte) (s : State) : Except Fault State :=
  match s.xorByte s.offset.toNat b with
  | .ok s' => .ok s'.blockAdvance
  | .error f => .error f

/-- `AbsorbByte` of each byte in order (R212). -/
def absorbSteps : List Byte → State → Except Fault State
  | [], s => .ok s
  | b :: bs, s =>
    match absorbStep b s with
    | .ok s' => absorbSteps bs s'
    | .error f => .error f

/-- `Pad()`: the two XORs in turn (R220). `S[RATE-1]` does not exist for `RATE = 0`. -/
def pad (s : State) : Except Fault State :=
  match s.xorByte s.offset.toNat s.delim with
  | .ok s' => if s.rate = 0#8 then .error .noSuchStateByte else s'.xorByte (s.rate.toNat - 1) 0x80#8
  | .error f => .error f

/-- The start of `SqueezeByte`: an exhausted block is permuted first (R230). -/
def State.blockRefill (s : State) : State :=
  if s.offset = s.rate then { s.keccakF with offset := 0#8 } else s

/-- `SqueezeByte()` (R230). -/
def squeezeStep (s : State) : Except Fault (Byte × State) :=
  let s' := s.blockRefill
  match s'.readByte s'.offset.toNat with
  | .ok b => .ok (b, { s' with offset := s'.offset + 1#8 })
  | .error f => .error f

/-- `SqueezeByte` `n` times, the bytes in order (R231). -/
def squeezeSteps : Nat → State → Except Fault (List Byte × State)
  | 0, s => .ok ([], s)
  | n + 1, s =>
    match squeezeStep s with
    | .ok (b, s') =>
      match squeezeSteps n s' with
      | .ok (bs, s'') => .ok (b :: bs, s'')
      | .error f => .error f
    | .error f => .error f

end Sys2Proof.Machine
end

