-- ==== Sys2Proof/Machine/Control.lean ====
section
/-! DEFINITION. The control, status and context commands (spec/42_control.md): NOP, CLEAR, READ_STATUS, READ_CTX,
SET_CTX. -/

namespace Sys2Proof.Machine

/-- NOP (R260): performed while `ERR = 1` too. -/
def execNop (s : State) : Result := .next (s.respond 0#64)

/-- CLEAR (R261): the reset state, and a response; performed while `ERR = 1` too. -/
def execClear (s : State) : Result := .next (s.cleared.respond 0#64)

/-- READ_STATUS (R262): performed while `ERR = 1` too. -/
def execReadStatus (s : State) : Result := .next (s.respond s.statusWord)

/-- READ_CTX (R263). -/
def execReadCtx (s : State) : Result := s.unlocked (.next (s.respond s.ctxWord))

/-- The registers SET_CTX writes from a context word it accepts (R264). The lanes and the latch are not touched. -/
def State.withContext (s : State) (ctx : Word64) (ph : Phase) : State :=
  { s with
    rate := ctxRate ctx, delim := ctxDelim ctx, offset := ctxOffset ctx, outlim := ctxOutlim ctx,
    sqcnt := ctxSqcnt ctx, phase := ph }

/-- SET_CTX (R264). -/
def execSetCtx (ctx : Word64) (s : State) : Result :=
  s.unlocked <|
    if s.phase ≠ .idle then raising s .notIdle .setCtx
    else match ctxCheck ctx with
      | none => raising s .badContext .setCtx
      | some ph => .next ((s.withContext ctx ph).respond 0#64)

end Sys2Proof.Machine
end

