-- ==== Sys2Proof/Machine/RawState.lean ====
section
/-! DEFINITION. The raw-state commands (spec/40_permutation.md section 5): PERMUTE, LANE_WRITE, LANE_READ. -/

namespace Sys2Proof.Machine

/-- PERMUTE (R160). -/
def execPermute (s : State) : Result :=
  s.unlocked <|
    if s.phase ≠ .idle then raising s .notIdle .permute
    else .next (s.keccakF.respond 0#64)

/-- LANE_WRITE (R161). -/
def execLaneWrite (i : Byte) (value : Word64) (s : State) : Result :=
  s.unlocked <|
    if s.phase ≠ .idle then raising s .notIdle .laneWrite
    else if 24 < i.toNat then raising s .badOperand .laneWrite
    else .next ({ s with lanes := Lanes.put s.lanes i.toNat value }.respond 0#64)

/-- LANE_READ (R162): in any phase. -/
def execLaneRead (i : Byte) (s : State) : Result :=
  s.unlocked <|
    if 24 < i.toNat then raising s .badOperand .laneRead
    else .next (s.respond (Lanes.get s.lanes i.toNat))

end Sys2Proof.Machine
end

