-- ==== Sys2Proof/Machine/Sponge.lean ====
section
/-! DEFINITION. The sponge controller's commands (spec/41_sponge.md): INIT_VARIANT, INIT_CUSTOM, ABSORB_BYTE, ABSORB_N,
FINALIZE, SQUEEZE_N. -/

namespace Sys2Proof.Machine

/-- A new sponge: zero lanes, these parameters, an empty block, ABSORB (R203, R204). -/
def State.construct (s : State) (rate delim outlim : Byte) : State :=
  { s with
    lanes := Lanes.zero, rate := rate, delim := delim, outlim := outlim, offset := 0#8, sqcnt := 0#8,
    phase := .absorb }

/-- INIT_VARIANT (R203). -/
def execInitVariant (id : Byte) (s : State) : Result :=
  s.unlocked <|
    match variantRom id with
    | none => raising s .badOperand .initVariant
    | some v => .next ((s.construct v.rate v.delim v.outlim).respond 0#64)

/-- INIT_CUSTOM (R204). -/
def execInitCustom (delim rate : Byte) (s : State) : Result :=
  s.unlocked <|
    if rate.toNat < 1 ∨ 200 < rate.toNat then raising s .badOperand .initCustom
    else .next ((s.construct rate delim 0#8).respond 0#64)

/-- ABSORB_BYTE (R211). -/
def execAbsorbByte (b : Byte) (s : State) : Result :=
  s.unlocked <|
    match s.phase with
    | .idle => raising s .notInitialised .absorbByte
    | .squeeze => raising s .absorbAfterFinalize .absorbByte
    | .absorb => finish (absorbStep b s) (·.respond 0#64)

/-- ABSORB_N (R212). -/
def execAbsorbN (n : Byte) (data : Word64) (s : State) : Result :=
  s.unlocked <|
    match s.phase with
    | .idle => raising s .notInitialised .absorbN
    | .squeeze => raising s .absorbAfterFinalize .absorbN
    | .absorb =>
      if 8 < n.toNat then raising s .badOperand .absorbN
      else finish (absorbSteps (dataBytes n.toNat data) s) (·.respond 0#64)

/-- The end of FINALIZE: the padded block is permuted and the squeezing phase starts (R221). -/
def State.enterSqueeze (s : State) : State := { s.keccakF with phase := .squeeze, offset := 0#8, sqcnt := 0#8 }

/-- FINALIZE (R221). -/
def execFinalize (s : State) : Result :=
  s.unlocked <|
    match s.phase with
    | .idle => raising s .notInitialised .finalize
    | .squeeze => raising s .finalizeTwice .finalize
    | .absorb => finish (pad s) (·.enterSqueeze.respond 0#64)

/-- `SQCNT` counts only where there is a limit (R231, R38). -/
def State.countOutput (s : State) (n : Byte) : State :=
  if s.outlim = 0#8 then s else { s with sqcnt := s.sqcnt + n }

/-- SQUEEZE_N (R231). The limit check is on exact numbers, never wrapped. -/
def execSqueezeN (n : Byte) (s : State) : Result :=
  s.unlocked <|
    match s.phase with
    | .idle => raising s .notInitialised .squeezeN
    | .absorb => raising s .squeezeBeforeFinalize .squeezeN
    | .squeeze =>
      if 8 < n.toNat then raising s .badOperand .squeezeN
      else if s.outlim ≠ 0#8 ∧ s.outlim.toNat < s.sqcnt.toNat + n.toNat then raising s .outputLength .squeezeN
      else match squeezeSteps n.toNat s with
        | .error f => .fault f
        | .ok (bs, s') => .next ((s'.countOutput n).respond (packBytes bs))

end Sys2Proof.Machine
end

