-- ==== Sys2Proof/Machine/Dispatch.lean ====
section
/-! DEFINITION. The meaning of each command, one arm for each row of the opcode table (spec/30_encoding.md R107). The
prologue's decode checks come before (Machine/Port.lean); its lock check is in each meaning (R304). -/

namespace Sys2Proof.Machine

def exec (i : Instr) (s : State) : Host.Outcome State Fault Refusal :=
  match i with
  | .nop => Sys2Proof.Machine.execNop s
  | .clear => Sys2Proof.Machine.execClear s
  | .readStatus => Sys2Proof.Machine.execReadStatus s
  | .readCtx => Sys2Proof.Machine.execReadCtx s
  | .setCtx ctx => Sys2Proof.Machine.execSetCtx ctx s
  | .initVariant id => Sys2Proof.Machine.execInitVariant id s
  | .initCustom delim rate => Sys2Proof.Machine.execInitCustom delim rate s
  | .absorbByte b => Sys2Proof.Machine.execAbsorbByte b s
  | .absorbN n data => Sys2Proof.Machine.execAbsorbN n data s
  | .finalize => Sys2Proof.Machine.execFinalize s
  | .squeezeN n => Sys2Proof.Machine.execSqueezeN n s
  | .permute => Sys2Proof.Machine.execPermute s
  | .laneWrite lane value => Sys2Proof.Machine.execLaneWrite lane value s
  | .laneRead lane => Sys2Proof.Machine.execLaneRead lane s

end Sys2Proof.Machine
end

