-- ==== Sys2Proof/Machine/Port.lean ====
section
/-! DEFINITION. The host port at the transaction level (spec/30_encoding.md R101, R102): the prologue and rule of one
accepted command, the delivery of its response, the event a step of the core performs, and the output pins. -/

namespace Sys2Proof.Machine

/-- One command through its prologue and its rule (R304, R102): a word that is no command raises its decode error, before
the lock is looked at (R109). -/
def runCommand (c : Command) (s : State) : Result :=
  match decode c with
  | .error e => .next (s.raise (decodeErrorCode e) c.op)
  | .ok i => exec i s

/-- The pending response is delivered to the host (R101). -/
def State.deliver (s : State) (r : Response) : State :=
  { s with rsp := none, host := { s.host with taken := s.host.taken ++ [r] } }

/-- The command on the port is accepted: the host goes on to its next offer (R101). -/
def State.accept (s : State) (rest : List Command) : State := { s with host := { s.host with offers := rest } }

/-- One event of the core.
* `rst = 1`: reset, abandoning what is in flight (R340, R341).
* Engine busy: it goes on, and an offer is held (R344, R152).
* Response pending: delivered if the host takes it; if it does not, nothing happens, and offers are held (R101, R345).
* Otherwise the core is ready: the command on the port, if any, is accepted and performed whole (R101, R102); with none
  the state is held (R315). -/
def portStep (s : State) : Result :=
  if s.host.rst then .next s.cleared
  else match s.engine with
    | some _ => .next s.engineRound
    | none =>
      match s.rsp with
      | some r => if s.host.rspReady then .next (s.deliver r) else .next s
      | none =>
        match s.host.offers with
        | [] => .next s
        | c :: rest => runCommand c (s.accept rest)

/-- The port free, with this command alone on offer: the next step accepts and performs it. -/
def State.offerNow (s : State) (c : Command) : State :=
  { s with engine := none, rsp := none, host := { s.host with rst := false, offers := [c] } }

/-- The output pins (R100). `rsp_data` and `rsp_code` have no value while `rsp_valid = 0` (R101, D33). -/
structure Outputs where
  cmdReady : Bool
  rspValid : Bool
  rsp : Option Response
  err : Bool
deriving DecidableEq, Repr

/-- The output pins in a state out of reset (R101, R310). -/
def State.outputs (s : State) : Outputs :=
  { cmdReady := !s.host.rst && s.engine.isNone && s.rsp.isNone
    rspValid := !s.host.rst && s.rsp.isSome
    rsp := if s.host.rst then none else s.rsp
    err := s.err }

/-! ### Runs of a host program -/

/-- One transaction, R102's `Step`: the command performed and its response delivered. -/
def transact (c : Command) (s : State) : Result :=
  match runCommand c s with
  | .next s' =>
    match s'.rsp with
    | some r => .next (s'.deliver r)
    | none => .next s'
  | .fault f => .fault f
  | .refused r => .refused r

/-- The run of a host program: the fold of `Step` over its list of commands (R102, R347). Its observation is
`host.taken` and the final state. -/
def runProgram : List Command → State → Result
  | [], s => .next s
  | c :: cs, s =>
    match transact c s with
    | .next s' => runProgram cs s'
    | .fault f => .fault f
    | .refused r => .refused r

end Sys2Proof.Machine
end

