-- ==== Sys2Proof/Machine/Step.lean ====
section
/-! DEFINITION. One step of the machine: one event of the port (Machine/Port.lean), in which a whole command is accepted
and performed, or its response delivered (spec/30_encoding.md R101, R102; log entry 1). -/

namespace Sys2Proof.Machine

/-- One step. -/
def step (s : State) : Host.Outcome State Fault Refusal := portStep s

/-- The state with the command of these table bits on the port, so that the next step performs it (log entry 3). -/
def State.withFetchWord (s : State) (nbits w : Nat) : State := s.offerNow (tableCommand nbits w)

end Sys2Proof.Machine
end

