-- ==== Sys2Proof/Machine/Assembler.lean ====
section
/-! DEFINITION. The assembler syntax of spec/30_encoding.md R111 and the pseudo-instructions of R112, which give the
operations of the source's API (spec/41_sponge.md R235). -/

namespace Sys2Proof.Machine

/-! ### Pseudo-instructions -/

/-- `absorb <b0 ... b(m-1)>`: groups of 8 bytes, then the remainder if there is one (R112). -/
def absorbSeq : List Byte → List Instr
  | b0 :: b1 :: b2 :: b3 :: b4 :: b5 :: b6 :: b7 :: rest =>
    .absorbN 8#8 (packBytes [b0, b1, b2, b3, b4, b5, b6, b7]) :: absorbSeq rest
  | [] => []
  | bs => [.absorbN (BitVec.ofNat 8 bs.length) (packBytes bs)]

/-- `squeeze <len>` (R112). -/
def squeezeSeq (len : Nat) : List Instr :=
  List.replicate (len / 8) (.squeezeN 8#8) ++ (if len % 8 = 0 then [] else [.squeezeN (BitVec.ofNat 8 (len % 8))])

/-- `hash <variant>, <bytes>, <len>` (R112). -/
def hashSeq (id : Byte) (bytes : List Byte) (len : Nat) : List Instr :=
  .initVariant id :: (absorbSeq bytes ++ .finalize :: squeezeSeq len)

/-- `lane.r 0` ... `lane.r 24`. -/
def laneReads : List Instr := (List.range 25).map fun i => .laneRead (BitVec.ofNat 8 i)

/-- `lane.w 0, L0` ... `lane.w 24, L24`. -/
def laneWrites (L : Lanes) : List Instr :=
  (List.range 25).map fun i => .laneWrite (BitVec.ofNat 8 i) (Lanes.get L i)

/-- `save` (R112). -/
def saveSeq : List Instr := .readCtx :: laneReads

/-- `restore <ctx>, <L0..L24>` (R112). -/
def restoreSeq (ctx : Word64) (L : Lanes) : List Instr := .clear :: (laneWrites L ++ [.setCtx ctx])

/-- `permute_raw <L0..L24>` (R112). -/
def permuteRawSeq (L : Lanes) : List Instr := .clear :: (laneWrites L ++ .permute :: laneReads)

/-- The commands of a sequence. -/
def assembled (is : List Instr) : List Command := is.map encode

/-! ### The text of one line (log entry 17) -/

/-- The pieces of a text between separators. -/
def splitOn (sep : Char) : List Char → List (List Char)
  | [] => [[]]
  | c :: cs =>
    match splitOn sep cs with
    | [] => [[c]]
    | p :: ps => if c = sep then [] :: p :: ps else (c :: p) :: ps

/-- The text without spaces at its start. -/
def trimLeft : List Char → List Char
  | [] => []
  | c :: cs => if c = ' ' then trimLeft cs else c :: cs

/-- The text without spaces at either end. -/
def trim (cs : List Char) : List Char := (trimLeft (trimLeft cs).reverse).reverse

/-- The value of a digit, decimal or hex. -/
def digitValue (c : Char) : Option Nat :=
  if '0' ≤ c ∧ c ≤ '9' then some (c.toNat - '0'.toNat)
  else if 'a' ≤ c ∧ c ≤ 'f' then some (c.toNat - 'a'.toNat + 10)
  else if 'A' ≤ c ∧ c ≤ 'F' then some (c.toNat - 'A'.toNat + 10)
  else none

/-- The value of digits in a base, after those already read. -/
def digitsValue (base acc : Nat) : List Char → Option Nat
  | [] => some acc
  | c :: cs =>
    match digitValue c with
    | none => none
    | some d => if d < base then digitsValue base (acc * base + d) cs else none

/-- A number: decimal, or `0x` and hex digits (R111). -/
def numberOf : List Char → Option Nat
  | [] => none
  | '0' :: 'x' :: d :: ds => digitsValue 16 0 (d :: ds)
  | cs => digitsValue 10 0 cs

/-- A number that fits a field of this width. -/
def fieldOf (w : Nat) (cs : List Char) : Option (BitVec w) :=
  match numberOf cs with
  | some n => if n < 2 ^ w then some (BitVec.ofNat w n) else none
  | none => none

/-- The variant names of R111, in the order of their ids. -/
def variantNames : List String :=
  ["shake128", "shake256", "keccak224", "keccak256", "keccak384", "keccak512", "sha3_224", "sha3_256", "sha3_384",
   "sha3_512"]

/-- A variant: a name or its id (R111). -/
def variantOf (cs : List Char) : Option Byte :=
  match variantNames.findIdx? fun n => n.toList == cs with
  | some i => some (BitVec.ofNat 8 i)
  | none => fieldOf 8 cs

/-- The instruction of a line's mnemonic and operands (the syntax column of R111). -/
def instrOf (name : List Char) (args : List (List Char)) : Option Instr :=
  match args with
  | [] =>
    if name = "nop".toList then some .nop
    else if name = "clear".toList then some .clear
    else if name = "rdstatus".toList then some .readStatus
    else if name = "rdctx".toList then some .readCtx
    else if name = "finalize".toList then some .finalize
    else if name = "permute".toList then some .permute
    else none
  | [a] =>
    if name = "setctx".toList then (fieldOf 64 a).map .setCtx
    else if name = "init".toList then (variantOf a).map .initVariant
    else if name = "absorb.b".toList then (fieldOf 8 a).map .absorbByte
    else if name = "squeeze.n".toList then (fieldOf 8 a).map .squeezeN
    else if name = "lane.r".toList then (fieldOf 8 a).map .laneRead
    else none
  | [a, b] =>
    if name = "initc".toList then
      match fieldOf 8 a, fieldOf 8 b with
      | some rate, some delim => some (.initCustom delim rate)
      | _, _ => none
    else if name = "absorb.n".toList then
      match fieldOf 8 a, fieldOf 64 b with
      | some n, some d => some (.absorbN n d)
      | _, _ => none
    else if name = "lane.w".toList then
      match fieldOf 8 a, fieldOf 64 b with
      | some i, some v => some (.laneWrite i v)
      | _, _ => none
    else none
  | _ => none

/-- A line's mnemonic, and its operands: comma-separated, spaces around each ignored (R111). -/
def lineParts (line : String) : List Char × List (List Char) :=
  let cs := trim line.toList
  let name := cs.takeWhile (· ≠ ' ')
  let rest := trim (cs.dropWhile (· ≠ ' '))
  (name, if rest = [] then [] else (splitOn ',' rest).map trim)

/-- The `(cmd_word, cmd_data)` pair a line assembles to; none where it is no line of the syntax (R111). -/
def assembleLine (line : String) : Option Command := (instrOf (lineParts line).1 (lineParts line).2).map encode

end Sys2Proof.Machine
end

