-- ==== Sys2Proof/Config.lean ====
section
/-! DEFINITION. What an implementation of the core fixes: the three open timing parameters of spec/00_scope.md R8.
The transaction level (`step`, `exec`) has no time and uses none of them; the cycle level (Machine/Clock.lean) takes
them as an argument, as R8 asks. The spec leaves no instruction result open, so there is no free value here. -/

namespace Sys2Proof

/-- The open parameters of R8. A model takes each as an argument. -/
structure Timing where
  /-- `PERM_CYCLES`: cycles the engine is busy for one Keccak-f[1600] invocation. -/
  permCycles : Nat
  /-- `RSP_LATENCY`: cycles from acceptance to `rsp_valid`, beyond the command's permutations. -/
  rspLatency : Nat
  /-- `RESET_CYCLES`: consecutive rising edges `rst` must be seen high. -/
  resetCycles : Nat
deriving DecidableEq, Repr

/-- R8's constraint: each parameter is an integer `>= 1`. -/
abbrev Timing.Valid (t : Timing) : Prop :=
  1 ≤ t.permCycles ∧ 1 ≤ t.rspLatency ∧ 1 ≤ t.resetCycles

/-- R8's reference values: one round per cycle, and 1 and 1. -/
def Timing.reference : Timing := { permCycles := 24, rspLatency := 1, resetCycles := 1 }

end Sys2Proof
end

