-- ==== Sys2Proof/Machine/Clock.lean ====
section
/-! DEFINITION. The cycle level: one rising edge of `clk` (spec/30_encoding.md R100, R101; spec/70_reset_and_hazards.md
R340, R341, R346), with the timing parameters of spec/00_scope.md R8 and the input pins as arguments. It refines the
step (R102): a command has its effect at the edge that accepts it, and its response is raised after the cycles R346 asks
for (log entry 12). -/

namespace Sys2Proof.Machine

/-- Permutations in absorbing `n` bytes at this rate and offset (R210). -/
def absorbPerms : Nat → Nat → Nat → Nat
  | 0, _, _ => 0
  | n + 1, rate, offset =>
    if offset + 1 = rate then 1 + absorbPerms n rate 0 else absorbPerms n rate (offset + 1)

/-- Permutations in squeezing `n` bytes at this rate and offset (R230). -/
def squeezePerms : Nat → Nat → Nat → Nat
  | 0, _, _ => 0
  | n + 1, rate, offset =>
    if offset = rate then 1 + squeezePerms n rate 1 else squeezePerms n rate (offset + 1)

/-- Permutations a command performs when it completes: from the command, `RATE`, `OFFSET` and the count alone (R152,
R346). -/
def Instr.perms (i : Instr) (s : State) : Nat :=
  match i with
  | .nop => 0
  | .clear => 0
  | .readStatus => 0
  | .readCtx => 0
  | .setCtx _ => 0
  | .initVariant _ => 0
  | .initCustom _ _ => 0
  | .absorbByte _ => absorbPerms 1 s.rate.toNat s.offset.toNat
  | .absorbN n _ => absorbPerms n.toNat s.rate.toNat s.offset.toNat
  | .finalize => 1
  | .squeezeN n => squeezePerms n.toNat s.rate.toNat s.offset.toNat
  | .permute => 1
  | .laneWrite _ _ => 0
  | .laneRead _ => 0

/-- `k` of R346: the permutations of an offered command, 0 for one that raises an error or is locked out. -/
def permCount (c : Command) (s : State) : Nat :=
  match decode c, runCommand c s with
  | .ok i, .next t => if t.rsp.map (·.code) = some codeNone then Instr.perms i s else 0
  | _, _ => 0

/-- The input pins at one rising edge (R100). -/
structure Pins where
  rst : Bool
  cmdValid : Bool
  cmd : Command
  rspReady : Bool
deriving DecidableEq, Repr

/-- The core at the cycle level. -/
structure ClockState where
  /-- The state of the transaction level. -/
  core : State
  /-- Cycles left until the response of the command in flight is raised; 0 when none is executing. -/
  left : Nat
  /-- Consecutive rising edges at which `rst` was 1, up to now. -/
  rstSeen : Nat
  /-- Reset is complete (R340). -/
  outOfReset : Bool
deriving DecidableEq, Repr

/-- The host's side as the pins drive it at one edge. -/
def State.drive (s : State) (p : Pins) : State :=
  { s with
    host :=
      { rst := p.rst, rspReady := p.rspReady, offers := if p.cmdValid then [p.cmd] else [], taken := s.host.taken } }

/-- Out of reset, nothing executing and no response pending: `cmd_ready` while `rst = 0` (R101). -/
def ClockState.ready (c : ClockState) : Bool :=
  c.outOfReset && c.left == 0 && c.core.engine.isNone && c.core.rsp.isNone

/-- The output pins (R100, R101, R310, R340). DESIGN CHOICE (log entry 18): R340 and U3 leave every value of a core that
has not completed a reset open, a pending response included; the model drives `cmd_ready` and `rsp_valid` 0 until the
reset is complete. -/
def ClockState.outputs (c : ClockState) (rst : Bool) : Outputs :=
  let valid := !rst && c.outOfReset && c.left == 0 && c.core.rsp.isSome
  { cmdReady := !rst && c.ready
    rspValid := valid
    rsp := if valid then c.core.rsp else none
    err := c.core.err }

/-- A core that has not been reset, in any state at all (R340, U3). It accepts nothing before its reset is complete (R101);
that it also raises and delivers nothing and holds its state till then is the model's choice (log entry 18). -/
def ClockState.powerOn (s : State) : ClockState := { core := s, left := 0, rstSeen := 0, outOfReset := false }

/-- The cycles from acceptance to `rsp_valid`: the bound of R346 and `slack` more, which the spec leaves open. -/
def latency (t : Timing) (slack : Nat) (c : Command) (s : State) : Nat :=
  permCount c s * t.permCycles + t.rspLatency + slack

/-- One rising edge of `clk`. `slack` is how many cycles beyond R346's bound a command accepted at this edge takes.
* `rst = 1`: R340, R341.
* Reset not complete: it completes if `rst` was 1 at enough edges in a row (R340); nothing is accepted (R101), and, as the
  model's choice (log entry 18), nothing is delivered and every register is held.
* A command executing: one cycle of it passes; an offer is held (R101, R344).
* Otherwise the event of the transaction level: a response delivered, a command accepted, or nothing. -/
def tick (t : Timing) (slack : Nat) (p : Pins) (c : ClockState) : Host.Outcome ClockState Fault Refusal :=
  let s := c.core.drive p
  if p.rst then .next { core := s.cleared, left := 0, rstSeen := c.rstSeen + 1, outOfReset := false }
  else if c.outOfReset = false then
    .next { core := s, left := 0, rstSeen := 0, outOfReset := decide (t.resetCycles ≤ c.rstSeen) }
  else if c.left ≠ 0 then .next { core := s, left := c.left - 1, rstSeen := 0, outOfReset := true }
  else match portStep s with
    | .next s' =>
      .next { core := s', left := if c.ready && p.cmdValid then latency t slack p.cmd s else 0, rstSeen := 0,
              outOfReset := true }
    | .fault f => .fault f
    | .refused r => .refused r

/-- Edges one after another, each with its slack and its pins. -/
def ticks (t : Timing) : List (Nat × Pins) → ClockState → Host.Outcome ClockState Fault Refusal
  | [], c => .next c
  | (slack, p) :: ps, c =>
    match tick t slack p c with
    | .next c' => ticks t ps c'
    | .fault f => .fault f
    | .refused r => .refused r

end Sys2Proof.Machine
end

