-- ==== Sys2Proof/Safety.lean ====
section
/-! DEFINITION. The terms claims are stated in: the invariant `Legal` of spec/10_state.md R49, and the sponge written
block by block from spec/41_sponge.md R213, R220, R232 and R233, which no command rule uses. -/

namespace Sys2Proof.Machine

/-- `Legal` (R49). `PHASE` is one of the three by its type. -/
abbrev Legal (s : State) : Prop :=
  (s.phase = .idle → s.rate = 0#8 ∧ s.delim = 0#8 ∧ s.offset = 0#8 ∧ s.outlim = 0#8 ∧ s.sqcnt = 0#8) ∧
  (s.phase = .absorb →
    1 ≤ s.rate.toNat ∧ s.rate.toNat ≤ 200 ∧ s.offset.toNat ≤ s.rate.toNat - 1 ∧ s.sqcnt = 0#8) ∧
  (s.phase = .squeeze →
    1 ≤ s.rate.toNat ∧ s.rate.toNat ≤ 200 ∧ s.offset.toNat ≤ s.rate.toNat ∧
    (s.outlim = 0#8 → s.sqcnt = 0#8) ∧ (s.outlim ≠ 0#8 → s.sqcnt.toNat ≤ s.outlim.toNat)) ∧
  (s.err = false → s.errcode = 0x00#8 ∧ s.errop = 0x00#8)

/-- Every register, lane and latch bit at its reset value and the engine idle: both columns of R51, which differ in the
pending response alone. -/
abbrev AtResetValues (s : State) : Prop :=
  (∀ i, i < 25 → Lanes.get s.lanes i = 0#64) ∧ s.rate = 0#8 ∧ s.cap = 200#8 ∧ s.delim = 0#8 ∧ s.offset = 0#8 ∧
  s.phase = .idle ∧ s.outlim = 0#8 ∧ s.sqcnt = 0#8 ∧ s.err = false ∧ s.errcode = 0x00#8 ∧ s.errop = 0x00#8 ∧
  s.engine = none

/-- The registers a block of a configured sponge needs: a legal rate, and `OFFSET` inside the block (R35, R210). -/
abbrev InBlock (s : State) : Prop :=
  1 ≤ s.rate.toNat ∧ s.rate.toNat ≤ 200 ∧ s.offset.toNat < s.rate.toNat

/-- The same in SQUEEZE, where `OFFSET` may equal `RATE` (R35, R230). -/
abbrev InOutput (s : State) : Prop :=
  1 ≤ s.rate.toNat ∧ s.rate.toNat ≤ 200 ∧ s.offset.toNat ≤ s.rate.toNat

/-- The state after `raise Error(code)` by a command of opcode `op` while `ERR = 0` (R301): the latch, the response, and
nothing else. -/
def afterError (s : State) (code op : Byte) : State :=
  { s with err := true, errcode := code, errop := op, rsp := some { data := 0#64, code := code } }

/-- The state after a command that completes with this response word and changes nothing else (R13, R104). -/
def afterResponse (s : State) (data : Word64) : State := { s with rsp := some { data := data, code := 0x00#8 } }

/-- A free port: `rst` low, the engine idle, no response pending, so that a step accepts what is on offer (R101). -/
abbrev PortFree (s : State) : Prop := s.host.rst = false ∧ s.engine = none ∧ s.rsp = none

/-- Bytes XORed into `S[j]`, `S[j+1]`, and on. -/
def xorBytesAt (A : Lanes) (j : Nat) : List Byte → Lanes
  | [] => A
  | b :: bs => xorBytesAt (Lanes.xorByte A j b) (j + 1) bs

/-- `AbsorbByte` of each byte in order, on the lanes and the offset alone (R210). -/
def absorbInto (rate : Nat) : List Byte → Lanes × Nat → Lanes × Nat
  | [], p => p
  | b :: bs, (A, off) =>
    if off + 1 = rate then absorbInto rate bs (keccakF1600 (Lanes.xorByte A off b), 0)
    else absorbInto rate bs (Lanes.xorByte A off b, off + 1)

/-- `SqueezeByte` `n` times, on the lanes and the offset alone: the bytes, the lanes, the offset (R230). -/
def squeezeFrom (rate : Nat) : Nat → Lanes × Nat → List Byte × Lanes × Nat
  | 0, (A, off) => ([], A, off)
  | n + 1, (A, off) =>
    if off = rate then
      let r := squeezeFrom rate n (keccakF1600 A, 1)
      (Lanes.byte (keccakF1600 A) 0 :: r.1, r.2)
    else
      let r := squeezeFrom rate n (A, off + 1)
      (Lanes.byte A off :: r.1, r.2)

/-- Block `k` of a message at this rate: its bytes `k*rate .. k*rate + rate - 1`. -/
def blockOf (rate : Nat) (msg : List Byte) (k : Nat) : List Byte := (msg.drop (k * rate)).take rate

/-- The lanes after absorbing a message from the zero state, block by block (R213): each full block is XORed in and the
state permuted; the bytes that remain are XORed in. -/
def spongeAbsorb (rate : Nat) (msg : List Byte) : Lanes :=
  xorBytesAt
    ((List.range (msg.length / rate)).foldl (fun A k => keccakF1600 (xorBytesAt A 0 (blockOf rate msg k))) Lanes.zero)
    0 (msg.drop (msg.length / rate * rate))

/-- The padded state `P` of a message (R220, R232). -/
def spongePadded (rate : Nat) (delim : Byte) (msg : List Byte) : Lanes :=
  Lanes.xorByte (Lanes.xorByte (spongeAbsorb rate msg) (msg.length % rate) delim) (rate - 1) 0x80#8

/-- Byte `j` of the output stream of a padded state `P`: byte `j mod rate` of `Z_(1 + j div rate)` (R232). -/
def streamByte (rate : Nat) (P : Lanes) (j : Nat) : Byte := Lanes.byte (keccakPow (1 + j / rate) P) (j % rate)

/-- Squeezes of these counts one after another: all their bytes, in order (R232). -/
def squeezeEach : List Nat → State → Except Fault (List Byte × State)
  | [], s => .ok ([], s)
  | n :: ns, s =>
    match squeezeSteps n s with
    | .ok (bs, s') =>
      match squeezeEach ns s' with
      | .ok (cs, s'') => .ok (bs ++ cs, s'')
      | .error f => .error f
    | .error f => .error f

/-- The first `len` bytes of the output stream of a message. -/
def spongeHash (rate : Nat) (delim : Byte) (msg : List Byte) (len : Nat) : List Byte :=
  (List.range len).map (streamByte rate (spongePadded rate delim msg))

/-- The bytes an absorb command absorbs, in order; none for a command that absorbs nothing (R211, R212). -/
def absorbedBytes : Instr → List Byte
  | .absorbByte b => [b]
  | .absorbN n data => dataBytes n.toNat data
  | .nop => []
  | .clear => []
  | .readStatus => []
  | .readCtx => []
  | .setCtx _ => []
  | .initVariant _ => []
  | .initCustom _ _ => []
  | .finalize => []
  | .squeezeN _ => []
  | .permute => []
  | .laneWrite _ _ => []
  | .laneRead _ => []

/-- An ABSORB_BYTE, or an ABSORB_N with a legal count. -/
def isAbsorb : Instr → Bool
  | .absorbByte _ => true
  | .absorbN n _ => n.toNat ≤ 8
  | .nop => false
  | .clear => false
  | .readStatus => false
  | .readCtx => false
  | .setCtx _ => false
  | .initVariant _ => false
  | .initCustom _ _ => false
  | .finalize => false
  | .squeezeN _ => false
  | .permute => false
  | .laneWrite _ _ => false
  | .laneRead _ => false

/-- The response words that carry these bytes, 8 in each and the remainder in the last, as the `squeeze`
pseudo-instruction collects them (spec/30_encoding.md R112). -/
def responseWords : List Byte → List Response
  | b0 :: b1 :: b2 :: b3 :: b4 :: b5 :: b6 :: b7 :: rest =>
    { data := packBytes [b0, b1, b2, b3, b4, b5, b6, b7], code := codeNone } :: responseWords rest
  | [] => []
  | bs => [{ data := packBytes bs, code := codeNone }]

/-- What a completed command has done to the lanes, by the number of `KeccakF()` invocations it is said to perform (R152,
R346): the permuting commands have applied the permutation exactly so often to the lanes their byte accesses left,
ABSORB_N as `AbsorbByte` does byte by byte; the others have invoked it not at all. -/
def PermutesLanes (i : Instr) (k : Nat) (s t : State) : Prop :=
  match i with
  | .absorbByte b => t.lanes = keccakPow k (Lanes.xorByte s.lanes s.offset.toNat b)
  | .absorbN n data =>
    k = absorbPerms n.toNat s.rate.toNat s.offset.toNat ∧
      ∃ u, absorbSteps (dataBytes n.toNat data) s = .ok u ∧ t.lanes = u.lanes
  | .finalize => k = 1 ∧ ∃ u, pad s = .ok u ∧ t.lanes = keccakPow k u.lanes
  | .squeezeN _ => t.lanes = keccakPow k s.lanes
  | .permute => k = 1 ∧ t.lanes = keccakPow k s.lanes
  | .laneWrite j v => k = 0 ∧ t.lanes = Lanes.put s.lanes j.toNat v
  | .clear => k = 0 ∧ t.lanes = Lanes.zero
  | .initVariant _ => k = 0 ∧ t.lanes = Lanes.zero
  | .initCustom _ _ => k = 0 ∧ t.lanes = Lanes.zero
  | .nop => k = 0 ∧ t.lanes = s.lanes
  | .readStatus => k = 0 ∧ t.lanes = s.lanes
  | .readCtx => k = 0 ∧ t.lanes = s.lanes
  | .setCtx _ => k = 0 ∧ t.lanes = s.lanes
  | .laneRead _ => k = 0 ∧ t.lanes = s.lanes

/-- A safe run: a program from a state ends in a next state, with no fault and no refusal. -/
def Completes (cs : List Command) (s : State) : Prop := ∃ t, runProgram cs s = .next t

end Sys2Proof.Machine
end

