-- ==== Sys2Proof/Certificates/Slice0/Obligations.lean ====
section
/-! DEFINITION. The statements for the provers: encoding, the port, each command, the errors, the invariants, the sponge,
the permutation, the cycle level. -/

open Sys2Proof Sys2Proof.Machine

/-! ### Encoding -/

/-- R107, R108: every command, with every operand at every value of its field, is read back from its encoding. -/
def Obligations.DecodeEncodeRoundTrip : Prop := ∀ i : Instr, decode (encode i) = .ok i

/-- R107: a word that decodes is the fully legal word of the command it decodes to, so no bit of it is dropped; and the
data operand is kept where the command reads it. -/
def Obligations.DecodedWordIsItsEncoding : Prop :=
  ∀ (c : Command) (i : Instr), decode c = .ok i →
    (encode i).word = c.word ∧ (i.op.readsData = true → (encode i).data = c.data)

/-- R108: which words are ILLEGAL_OPCODE, which RESERVED_FIELD, and what every other word decodes to. -/
def Obligations.DecodingIsTotalInOrder : Prop :=
  ∀ c : Command,
    (decode c = .error .illegalOpcode ↔
      c.op.toNat ∉ [0x00, 0x01, 0x02, 0x03, 0x04, 0x10, 0x11, 0x20, 0x21, 0x28, 0x30, 0x40, 0x41, 0x42]) ∧
    (decode c = .error .reservedField ↔
      c.op.toNat ∈ [0x00, 0x01, 0x02, 0x03, 0x04, 0x10, 0x11, 0x20, 0x21, 0x28, 0x30, 0x40, 0x41, 0x42] ∧
      (c.rsv ≠ 0#8 ∨ (c.arg ≠ 0#8 ∧ c.op.toNat ∉ [0x10, 0x11, 0x20]) ∨
        (c.idx ≠ 0#8 ∧ c.op.toNat ∉ [0x11, 0x21, 0x30, 0x41, 0x42]))) ∧
    (∀ i, decode c = .ok i → i.op.code = c.op ∧ i = Instr.ofFields i.op c.arg c.idx c.data)

/-- Words written out from R107 and R111 decode to the commands they stand for. -/
def Obligations.SampleWordsDecode : Prop :=
  decode { word := 0x00000710#32, data := 0#64 } = .ok (.initVariant 7#8) ∧
  decode { word := 0x00030611#32, data := 0#64 } = .ok (.initCustom 0x06#8 3#8) ∧
  decode { word := 0x00050021#32, data := 0x0000006F6C6C6568#64 } = .ok (.absorbN 5#8 0x0000006F6C6C6568#64) ∧
  decode { word := 0x00080030#32, data := 0#64 } = .ok (.squeezeN 8#8) ∧
  decode { word := 0x00100041#32, data := 0x8000000000000000#64 } = .ok (.laneWrite 16#8 0x8000000000000000#64) ∧
  decode { word := 0x00000004#32, data := 0x0000002002000688#64 } = .ok (.setCtx 0x0000002002000688#64) ∧
  decode { word := 0x0000AB12#32, data := 0#64 } = .error .illegalOpcode ∧
  decode { word := 0x00010710#32, data := 0#64 } = .error .reservedField

/-- R107, R111: the word and the data operand of each command, for every value of its fields. -/
def Obligations.EncodedWordsFollowTheOpcodeMap : Prop :=
  [Instr.nop, .clear, .readStatus, .readCtx, .finalize, .permute].map encode =
    [⟨0x00#32, 0#64⟩, ⟨0x01#32, 0#64⟩, ⟨0x02#32, 0#64⟩, ⟨0x03#32, 0#64⟩, ⟨0x28#32, 0#64⟩, ⟨0x40#32, 0#64⟩] ∧
  (∀ ctx : Word64, (encode (.setCtx ctx)).word.toNat = 0x04 ∧ (encode (.setCtx ctx)).data = ctx) ∧
  (∀ id : Byte, (encode (.initVariant id)).word.toNat = 0x10 + 2 ^ 8 * id.toNat ∧ (encode (.initVariant id)).data = 0#64) ∧
  (∀ delim rate : Byte,
    (encode (.initCustom delim rate)).word.toNat = 0x11 + 2 ^ 8 * delim.toNat + 2 ^ 16 * rate.toNat ∧
    (encode (.initCustom delim rate)).data = 0#64) ∧
  (∀ b : Byte, (encode (.absorbByte b)).word.toNat = 0x20 + 2 ^ 8 * b.toNat ∧ (encode (.absorbByte b)).data = 0#64) ∧
  (∀ (n : Byte) (data : Word64),
    (encode (.absorbN n data)).word.toNat = 0x21 + 2 ^ 16 * n.toNat ∧ (encode (.absorbN n data)).data = data) ∧
  (∀ n : Byte, (encode (.squeezeN n)).word.toNat = 0x30 + 2 ^ 16 * n.toNat ∧ (encode (.squeezeN n)).data = 0#64) ∧
  (∀ (i : Byte) (v : Word64),
    (encode (.laneWrite i v)).word.toNat = 0x41 + 2 ^ 16 * i.toNat ∧ (encode (.laneWrite i v)).data = v) ∧
  (∀ i : Byte, (encode (.laneRead i)).word.toNat = 0x42 + 2 ^ 16 * i.toNat ∧ (encode (.laneRead i)).data = 0#64)

/-- R106: `cmd_data` is read by SET_CTX (0x04), ABSORB_N (0x21) and LANE_WRITE (0x41) alone; and ABSORB_N reads its
first `n` bytes alone. -/
def Obligations.UnreadDataIsIgnored : Prop :=
  (∀ (w : Word32) (d d' : Word64) (s : State), (Command.mk w d).op.toNat ∉ [0x04, 0x21, 0x41] →
    runCommand { word := w, data := d } s = runCommand { word := w, data := d' } s) ∧
  (∀ (n : Byte) (d d' : Word64) (s : State), (∀ k, k < n.toNat → laneByte d k = laneByte d' k) →
    exec (.absorbN n d) s = exec (.absorbN n d') s)

/-! ### The port -/

/-- R101, R102: with the port free, a step accepts the command on offer and performs the command its word decodes to;
around `exec` it moves the host on to its next offer and nothing else. -/
def Obligations.StepRunsTheDecodedCommand : Prop :=
  ∀ (s : State) (c : Command) (rest : List Command) (i : Instr),
    PortFree s → s.host.offers = c :: rest → decode c = .ok i →
      step s = exec i { s with host := { s.host with offers := rest } }

/-- R304, R301: with the port free, a word that is no command gets its decode error, latched when `ERR = 0` and only
reported when `ERR = 1`. -/
def Obligations.StepRaisesDecodeErrors : Prop :=
  ∀ (s : State) (c : Command) (rest : List Command) (e : DecodeError),
    PortFree s → s.host.offers = c :: rest → decode c = .error e →
      let s' : State := { s with host := { s.host with offers := rest } }
      let code : Byte := match e with | .illegalOpcode => 0x01#8 | .reservedField => 0x02#8
      step s = .next (if s.err then { s' with rsp := some { data := 0#64, code := code } } else afterError s' code c.op)

/-- R101, R345, R315: a pending response is delivered when the host takes it and stays as it is when it does not, offers
being held; and with nothing pending and nothing offered the state is held. -/
def Obligations.ResponsesAreDeliveredOrHeld : Prop :=
  ∀ s : State, s.host.rst = false → s.engine = none →
    (∀ r, s.rsp = some r → s.host.rspReady = true →
      step s = .next { s with rsp := none, host := { s.host with taken := s.host.taken ++ [r] } }) ∧
    (∀ r, s.rsp = some r → s.host.rspReady = false → step s = .next s) ∧
    (s.rsp = none → s.host.offers = [] → step s = .next s)

/-- R341, R340: reset at any time gives the reset state, whatever was in flight; no response of it is delivered. -/
def Obligations.ResetAbandonsWhatIsInFlight : Prop :=
  ∀ s : State, s.host.rst = true →
    ∃ t, step s = .next t ∧ AtResetValues t ∧ t.rsp = none ∧ t.host = s.host

/-- R51: the two columns of reset values. -/
def Obligations.ResetAndClearValues : Prop :=
  AtResetValues State.reset ∧ State.reset.rsp = none ∧
  State.reset.ctxWord = 0xC800000000000000#64 ∧ State.reset.statusWord = 0#64 ∧
  ∀ s : State, ∃ t, exec .clear s = .next t ∧ AtResetValues t ∧ t.rsp = some { data := 0#64, code := 0x00#8 } ∧
    t.host = s.host

/-- R102, R347: a run of a host program is the fold of its commands; the step machine, with a host that takes every
response, performs it in two steps a command and takes the same responses. -/
def Obligations.StepsRunHostPrograms : Prop :=
  ∀ (cs : List Command) (s t : State),
    PortFree s → s.host.rspReady = true → s.host.offers = cs →
    runProgram cs { s with host := { s.host with offers := [] } } = .next t →
      Host.Core.run Sys2Proof.core (2 * cs.length) s = .next t

/-! ### Control commands -/

/-- R260. -/
def Obligations.NopCompletes : Prop := ∀ s : State, exec .nop s = .next (afterResponse s 0#64)

/-- R262, R41: READ_STATUS completes in every state, and each field of its word is the register R41 names, its reserved
bits 0. -/
def Obligations.ReadStatusReturnsStatus : Prop :=
  ∀ s : State, ∃ w : Word64, exec .readStatus s = .next (afterResponse s w) ∧
    w.extractLsb' 0 2 = (match s.phase with | .idle => 0#2 | .absorb => 1#2 | .squeeze => 2#2) ∧
    w.extractLsb' 2 1 = BitVec.ofBool s.err ∧ w.extractLsb' 3 5 = 0#5 ∧
    w.extractLsb' 8 8 = s.errcode ∧ w.extractLsb' 16 8 = s.errop ∧ w.extractLsb' 24 40 = 0#40

/-- R263, R42: READ_CTX completes while `ERR = 0`, and each field of its word is the register R42 names, its reserved
bits 0. -/
def Obligations.ReadCtxReturnsContext : Prop :=
  ∀ s : State, s.err = false → ∃ w : Word64, exec .readCtx s = .next (afterResponse s w) ∧
    w.extractLsb' 0 8 = s.rate ∧ w.extractLsb' 8 8 = s.delim ∧ w.extractLsb' 16 8 = s.offset ∧
    w.extractLsb' 24 2 = (match s.phase with | .idle => 0#2 | .absorb => 1#2 | .squeeze => 2#2) ∧
    w.extractLsb' 26 6 = 0#6 ∧ w.extractLsb' 32 8 = s.outlim ∧ w.extractLsb' 40 8 = s.sqcnt ∧
    w.extractLsb' 48 8 = 0#8 ∧ w.extractLsb' 56 8 = 200#8 - s.rate

/-- R264: SET_CTX outside IDLE, with an accepted word, and with a refused one. -/
def Obligations.SetCtxRestoresOrRefuses : Prop :=
  ∀ (ctx : Word64) (s : State), s.err = false →
    let rate : Byte := ctx.extractLsb' 0 8
    let off : Byte := ctx.extractLsb' 16 8
    let ph : BitVec 2 := ctx.extractLsb' 24 2
    let ol : Byte := ctx.extractLsb' 32 8
    let sc : Byte := ctx.extractLsb' 40 8
    let accepted : Prop :=
      ctx.extractLsb' 26 6 = 0#6 ∧ ctx.extractLsb' 48 8 = 0#8 ∧ 1 ≤ rate.toNat ∧ rate.toNat ≤ 200 ∧
      (ph = 1#2 ∨ ph = 2#2) ∧ (ph = 1#2 → off.toNat ≤ rate.toNat - 1) ∧ (ph = 2#2 → off.toNat ≤ rate.toNat) ∧
      ((ol = 0#8 ∨ ph = 1#2) → sc = 0#8) ∧ sc.toNat ≤ ol.toNat
    (s.phase ≠ .idle → exec (.setCtx ctx) s = .next (afterError s 0x09#8 0x04#8)) ∧
    (s.phase = .idle → accepted →
      exec (.setCtx ctx) s = .next (afterResponse { s with
        rate := rate, delim := ctx.extractLsb' 8 8, offset := off, outlim := ol, sqcnt := sc,
        phase := if ph = 1#2 then .absorb else .squeeze } 0#64)) ∧
    (s.phase = .idle → ¬ accepted → exec (.setCtx ctx) s = .next (afterError s 0x0A#8 0x04#8))

/-- R42: a word READ_CTX returned in ABSORB or SQUEEZE, by a core in a legal state, is accepted by SET_CTX in any core in
IDLE, and gives it the same registers. -/
def Obligations.SavedContextIsAccepted : Prop :=
  ∀ s t : State, Legal s → s.phase ≠ .idle → t.phase = .idle → t.err = false →
    exec (.setCtx s.ctxWord) t = .next (afterResponse { t with
      rate := s.rate, delim := s.delim, offset := s.offset, outlim := s.outlim, sqcnt := s.sqcnt, phase := s.phase } 0#64)

/-! ### Sponge commands -/

/-- R203, R201: each variant id with its rate, delimiter and output limit, in every phase; and the refused ids. -/
def Obligations.InitVariantConstructs : Prop :=
  (∀ (id rate delim outlim : Byte) (s : State), s.err = false →
    (id, rate, delim, outlim) ∈
      [(0#8, 168#8, 0x1F#8, 0#8), (1#8, 136#8, 0x1F#8, 0#8), (2#8, 144#8, 0x01#8, 28#8), (3#8, 136#8, 0x01#8, 32#8),
       (4#8, 104#8, 0x01#8, 48#8), (5#8, 72#8, 0x01#8, 64#8), (6#8, 144#8, 0x06#8, 28#8), (7#8, 136#8, 0x06#8, 32#8),
       (8#8, 104#8, 0x06#8, 48#8), (9#8, 72#8, 0x06#8, 64#8)] →
    exec (.initVariant id) s = .next (afterResponse { s with
      lanes := Vector.replicate 25 0#64, rate := rate, delim := delim, outlim := outlim, offset := 0#8, sqcnt := 0#8,
      phase := .absorb } 0#64)) ∧
  (∀ (id : Byte) (s : State), s.err = false → 9 < id.toNat →
    exec (.initVariant id) s = .next (afterError s 0x03#8 0x10#8))

/-- R204: INIT_CUSTOM with every delimiter and every rate, legal or not, in every phase. -/
def Obligations.InitCustomConstructs : Prop :=
  ∀ (delim rate : Byte) (s : State), s.err = false →
    (1 ≤ rate.toNat → rate.toNat ≤ 200 →
      exec (.initCustom delim rate) s = .next (afterResponse { s with
        lanes := Vector.replicate 25 0#64, rate := rate, delim := delim, outlim := 0#8, offset := 0#8, sqcnt := 0#8,
        phase := .absorb } 0#64)) ∧
    (rate.toNat = 0 ∨ 200 < rate.toNat →
      exec (.initCustom delim rate) s = .next (afterError s 0x03#8 0x11#8))

/-- R211, R210: ABSORB_BYTE in each phase. A full block is permuted the moment its last byte arrives. -/
def Obligations.AbsorbByteAbsorbs : Prop :=
  ∀ (b : Byte) (s : State), s.err = false → s.engine = none →
    (s.phase = .idle → exec (.absorbByte b) s = .next (afterError s 0x04#8 0x20#8)) ∧
    (s.phase = .squeeze → exec (.absorbByte b) s = .next (afterError s 0x05#8 0x20#8)) ∧
    (s.phase = .absorb → InBlock s → s.offset.toNat + 1 < s.rate.toNat →
      exec (.absorbByte b) s = .next (afterResponse { s with
        lanes := Lanes.putByte s.lanes s.offset.toNat (Lanes.byte s.lanes s.offset.toNat ^^^ b)
        offset := BitVec.ofNat 8 (s.offset.toNat + 1) } 0#64)) ∧
    (s.phase = .absorb → InBlock s → s.offset.toNat + 1 = s.rate.toNat →
      exec (.absorbByte b) s = .next (afterResponse { s with
        lanes := keccakF1600 (Lanes.putByte s.lanes s.offset.toNat (Lanes.byte s.lanes s.offset.toNat ^^^ b))
        offset := 0#8 } 0#64))

/-- R212: ABSORB_N in each phase and for every count; its bytes are absorbed one by one, in order, as ABSORB_BYTE absorbs
each. -/
def Obligations.AbsorbNAbsorbsEachByte : Prop :=
  ∀ (n : Byte) (data : Word64) (s : State), s.err = false → s.engine = none →
    (s.phase = .idle → exec (.absorbN n data) s = .next (afterError s 0x04#8 0x21#8)) ∧
    (s.phase = .squeeze → exec (.absorbN n data) s = .next (afterError s 0x05#8 0x21#8)) ∧
    (s.phase = .absorb → 8 < n.toNat → exec (.absorbN n data) s = .next (afterError s 0x03#8 0x21#8)) ∧
    (s.phase = .absorb → n.toNat ≤ 8 → InBlock s →
      let p := absorbInto s.rate.toNat ((List.range n.toNat).map fun k => data.extractLsb' (8 * k) 8)
        (s.lanes, s.offset.toNat)
      exec (.absorbN n data) s = .next (afterResponse { s with lanes := p.1, offset := BitVec.ofNat 8 p.2 } 0#64))

/-- R221, R220: FINALIZE in each phase: the two pad XORs in turn, one permutation, SQUEEZE. -/
def Obligations.FinalizePadsAndPermutes : Prop :=
  ∀ s : State, s.err = false → s.engine = none →
    (s.phase = .idle → exec .finalize s = .next (afterError s 0x04#8 0x28#8)) ∧
    (s.phase = .squeeze → exec .finalize s = .next (afterError s 0x07#8 0x28#8)) ∧
    (s.phase = .absorb → InBlock s →
      exec .finalize s = .next (afterResponse { s with
        lanes := keccakF1600 (Lanes.xorByte (Lanes.xorByte s.lanes s.offset.toNat s.delim) (s.rate.toNat - 1) 0x80#8)
        phase := .squeeze, offset := 0#8, sqcnt := 0#8 } 0#64))

/-- R231, R230: SQUEEZE_N in each phase and for every count. The limit check is exact; byte `k` of the response is the
`k`-th byte squeezed and the rest of it is 0. -/
def Obligations.SqueezeNProducesBytes : Prop :=
  ∀ (n : Byte) (s : State), s.err = false → s.engine = none →
    (s.phase = .idle → exec (.squeezeN n) s = .next (afterError s 0x04#8 0x30#8)) ∧
    (s.phase = .absorb → exec (.squeezeN n) s = .next (afterError s 0x06#8 0x30#8)) ∧
    (s.phase = .squeeze → 8 < n.toNat → exec (.squeezeN n) s = .next (afterError s 0x03#8 0x30#8)) ∧
    (s.phase = .squeeze → n.toNat ≤ 8 → s.outlim ≠ 0#8 → s.outlim.toNat < s.sqcnt.toNat + n.toNat →
      exec (.squeezeN n) s = .next (afterError s 0x08#8 0x30#8)) ∧
    (s.phase = .squeeze → n.toNat ≤ 8 → (s.outlim = 0#8 ∨ s.sqcnt.toNat + n.toNat ≤ s.outlim.toNat) → InOutput s →
      let q := squeezeFrom s.rate.toNat n.toNat (s.lanes, s.offset.toNat)
      ∃ w : Word64,
        exec (.squeezeN n) s = .next (afterResponse { s with
          lanes := q.2.1, offset := BitVec.ofNat 8 q.2.2
          sqcnt := if s.outlim = 0#8 then s.sqcnt else BitVec.ofNat 8 (s.sqcnt.toNat + n.toNat) } w) ∧
        ∀ k, k < 8 → w.extractLsb' (8 * k) 8 = q.1.getD k 0#8)

/-! ### Raw-state commands -/

/-- R160. -/
def Obligations.PermuteAppliesKeccak : Prop :=
  ∀ s : State, s.err = false → s.engine = none →
    (s.phase ≠ .idle → exec .permute s = .next (afterError s 0x09#8 0x40#8)) ∧
    (s.phase = .idle → exec .permute s = .next (afterResponse { s with lanes := keccakF1600 s.lanes } 0#64))

/-- R161: the phase is checked first; only lane `i` changes. -/
def Obligations.LaneWriteWritesOneLane : Prop :=
  ∀ (i : Byte) (v : Word64) (s : State), s.err = false →
    (s.phase ≠ .idle → exec (.laneWrite i v) s = .next (afterError s 0x09#8 0x41#8)) ∧
    (s.phase = .idle → 24 < i.toNat → exec (.laneWrite i v) s = .next (afterError s 0x03#8 0x41#8)) ∧
    (s.phase = .idle → i.toNat ≤ 24 → ∃ A : Lanes,
      exec (.laneWrite i v) s = .next (afterResponse { s with lanes := A } 0#64) ∧
      ∀ j, j < 25 → Lanes.get A j = if j = i.toNat then v else Lanes.get s.lanes j)

/-- R162: in every phase, and nothing changes but the response. -/
def Obligations.LaneReadReturnsTheLane : Prop :=
  ∀ (i : Byte) (s : State), s.err = false →
    (24 < i.toNat → exec (.laneRead i) s = .next (afterError s 0x03#8 0x42#8)) ∧
    (∀ h : i.toNat ≤ 24, exec (.laneRead i) s = .next (afterResponse s (s.lanes[i.toNat]'(by omega))))

/-! ### Errors -/

/-- R303: while `ERR = 1` every command but three answers LOCKED, and nothing changes, the latch included. -/
def Obligations.LockedCommandsDoNothing : Prop :=
  ∀ (i : Instr) (s : State), s.err = true → i.op ≠ .nop → i.op ≠ .clear → i.op ≠ .readStatus →
    exec i s = .next { s with rsp := some { data := 0#64, code := 0x0B#8 } }

/-- R302: a command that reports a code other than 0 leaves everything but the latch and the response as it was. -/
def Obligations.ErrorsAreAllOrNothing : Prop :=
  ∀ (c : Command) (s t : State) (r : Response), runCommand c s = .next t → t.rsp = some r → r.code ≠ 0x00#8 →
    t = { s with err := t.err, errcode := t.errcode, errop := t.errop, rsp := some r }

/-- R301: what an error other than LOCKED records: the response is 0 and its code, the first error is latched with the
`OP` field of its word, and a later one leaves the latch alone. -/
def Obligations.FirstErrorIsLatched : Prop :=
  ∀ (c : Command) (s t : State) (r : Response), runCommand c s = .next t → t.rsp = some r → r.code ≠ 0x00#8 →
    r.data = 0#64 ∧
    (s.err = false → t.err = true ∧ t.errcode = r.code ∧ t.errop = c.op) ∧
    (s.err = true → t.err = true ∧ t.errcode = s.errcode ∧ t.errop = s.errop)

/-- R300: every command that answers has a response, with a code from 0x00 to 0x0B. -/
def Obligations.ResponseCodesStayInTheTable : Prop :=
  ∀ (c : Command) (s t : State), runCommand c s = .next t → ∃ r, t.rsp = some r ∧ r.code.toNat ≤ 0x0B

/-- R39, R307: once set, the latch is left only by reset or an accepted CLEAR. -/
def Obligations.OnlyClearAndResetClearTheLatch : Prop :=
  ∀ s t : State, s.err = true → step s = .next t →
    (t.err = true ∧ t.errcode = s.errcode ∧ t.errop = s.errop) ∨ s.host.rst = true ∨
    (PortFree s ∧ ∃ c rest, s.host.offers = c :: rest ∧ decode c = .ok .clear)

/-! ### Invariants and whole-machine rules -/

/-- R49: reset establishes `Legal`. -/
def Obligations.ResetIsLegal : Prop := Legal State.reset

/-- R49: every step keeps `Legal`, from every state that meets it. -/
def Obligations.StepKeepsLegal : Prop := ∀ s t : State, Legal s → step s = .next t → Legal t

/-- R102, R302: from a legal state no step stops: every command, word and event has a next state. -/
def Obligations.LegalStepsNeverStop : Prop := ∀ s : State, Legal s → ∃ t, step s = .next t

/-- R36: the transitions of PHASE. -/
def Obligations.PhaseTransitions : Prop :=
  ∀ (i : Instr) (s t : State), exec i s = .next t →
    t.phase = s.phase ∨
    (i = .clear ∧ t.phase = .idle) ∨
    ((∃ id, i = .initVariant id) ∧ t.phase = .absorb) ∨
    ((∃ delim rate, i = .initCustom delim rate) ∧ t.phase = .absorb) ∨
    (i = .finalize ∧ s.phase = .absorb ∧ t.phase = .squeeze) ∨
    ((∃ ctx, i = .setCtx ctx) ∧ s.phase = .idle ∧ (t.phase = .absorb ∨ t.phase = .squeeze))

/-- R31, R50: which commands write the lane file. -/
def Obligations.LaneFileWriters : Prop :=
  ∀ (i : Instr) (s t : State), exec i s = .next t →
    (i.op ∈ [.nop, .readStatus, .readCtx, .setCtx, .laneRead] → t.lanes = s.lanes) ∧
    (∀ k v, i = .laneWrite k v → ∀ j, j < 25 → j ≠ k.toNat → Lanes.get t.lanes j = Lanes.get s.lanes j) ∧
    (s.phase = .idle → t.phase = .idle → t.lanes ≠ s.lanes → i.op ∈ [.clear, .laneWrite, .permute])

/-- R32, R34, R37: RATE, DELIM and OUTLIM are written by INIT_VARIANT, INIT_CUSTOM, SET_CTX and CLEAR alone. -/
def Obligations.ParametersAreFixedAtConstruction : Prop :=
  ∀ (i : Instr) (s t : State), exec i s = .next t → i.op ∉ [.initVariant, .initCustom, .setCtx, .clear] →
    t.rate = s.rate ∧ t.delim = s.delim ∧ t.outlim = s.outlim

/-- R78: wherever they answer, absorbing a byte that does not fill the block changes its own state byte alone, padding
changes `S[OFFSET]` and `S[RATE-1]` alone, and squeezing changes no lane before the block is exhausted. With `OFFSET` in
the block these bytes lie in the rate region, and the capacity region changes only through the permutation: of the lanes a
full block left, and of the lanes of an exhausted one. -/
def Obligations.CapacityIsNeverTouchedByByteAccesses : Prop :=
  (∀ (b : Byte) (s t : State), absorbStep b s = .ok t → s.offset + 1#8 ≠ s.rate →
    ∀ j, j < 200 → j ≠ s.offset.toNat → Lanes.byte t.lanes j = Lanes.byte s.lanes j) ∧
  (∀ s t : State, pad s = .ok t →
    ∀ j, j < 200 → j ≠ s.offset.toNat → j ≠ s.rate.toNat - 1 → Lanes.byte t.lanes j = Lanes.byte s.lanes j) ∧
  (∀ (s t : State) (b : Byte), squeezeStep s = .ok (b, t) → s.offset ≠ s.rate → t.lanes = s.lanes) ∧
  (∀ (b : Byte) (s t : State), InBlock s → absorbStep b s = .ok t →
    ∃ A : Lanes, (∀ j, s.rate.toNat ≤ j → j < 200 → Lanes.byte A j = Lanes.byte s.lanes j) ∧
      t.lanes = if s.offset.toNat + 1 = s.rate.toNat then keccakF1600 A else A) ∧
  (∀ s t : State, InBlock s → pad s = .ok t →
    ∀ j, s.rate.toNat ≤ j → j < 200 → Lanes.byte t.lanes j = Lanes.byte s.lanes j) ∧
  (∀ (s t : State) (b : Byte), InOutput s → squeezeStep s = .ok (b, t) →
    t.lanes = (if s.offset = s.rate then keccakF1600 s.lanes else s.lanes) ∧
    ∃ j, j < s.rate.toNat ∧ b = Lanes.byte t.lanes j)

/-- R77: READ_STATUS, READ_CTX and LANE_READ, when they complete, change nothing but the response, and answer the same
again. -/
def Obligations.ReadsHaveNoSideEffect : Prop :=
  ∀ (i : Instr) (s t : State) (r : Response), i.op ∈ [.readStatus, .readCtx, .laneRead] →
    exec i s = .next t → t.rsp = some r → r.code = 0x00#8 → t = { s with rsp := some r } ∧ exec i t = .next t

/-! ### The sponge as a function -/

/-- R213: after an INIT, whatever commands a message is split into, the lanes and OFFSET are those of the message
absorbed block by block; each command answers 0, and nothing else changes. -/
def Obligations.StreamingEquivalence : Prop :=
  ∀ (is : List Instr) (s : State), (∀ i, i ∈ is → isAbsorb i = true) → PortFree s → s.err = false →
    s.phase = .absorb → InBlock s → s.offset = 0#8 → s.lanes = Lanes.zero →
    ∃ t, runProgram (assembled is) s = .next t ∧
      t.lanes = spongeAbsorb s.rate.toNat (is.flatMap absorbedBytes) ∧
      t.offset.toNat = (is.flatMap absorbedBytes).length % s.rate.toNat ∧
      t = { s with
        lanes := t.lanes, offset := t.offset
        host := { s.host with
          taken := s.host.taken ++ List.replicate is.length { data := 0#64, code := 0x00#8 } } }

/-- R232: the bytes squeezed after FINALIZE of a padded state `P`, over any split into commands, are those of the output
stream, in order. -/
def Obligations.OutputStreamIsTheSpongeStream : Prop :=
  ∀ (ns : List Nat) (s : State) (P : Lanes), s.engine = none → 1 ≤ s.rate.toNat → s.rate.toNat ≤ 200 →
    s.offset = 0#8 → s.lanes = keccakF1600 P →
    ∃ t, squeezeSteps ns.sum s = .ok ((List.range ns.sum).map (streamByte s.rate.toNat P), t) ∧
      squeezeEach ns s = .ok ((List.range ns.sum).map (streamByte s.rate.toNat P), t)

/-- R233: the first `n` bytes of a longer squeeze are the squeeze of `n` bytes. -/
def Obligations.SqueezePrefix : Prop :=
  ∀ (n m : Nat) (s : State) (bs : List Byte) (t : State), n ≤ m → squeezeSteps m s = .ok (bs, t) →
    ∃ u, squeezeSteps n s = .ok (bs.take n, u)

/-- R234: while a limit smaller than the rate counts the bytes of the first output block, squeezing never permutes. -/
def Obligations.FixedDigestsNeverPermuteAgain : Prop :=
  ∀ (n : Byte) (s t : State), s.phase = .squeeze → s.outlim ≠ 0#8 → s.outlim.toNat < s.rate.toNat →
    s.sqcnt = s.offset → s.sqcnt.toNat ≤ s.outlim.toNat → exec (.squeezeN n) s = .next t →
    t.lanes = s.lanes ∧ t.sqcnt = t.offset ∧ t.sqcnt.toNat ≤ t.outlim.toNat

/-- R265: `save` on a core in ABSORB or SQUEEZE answers its context and lanes, and `restore` of them gives any core with
a free port, locked or not, the same lanes and registers. -/
def Obligations.ContextDuplication : Prop :=
  ∀ k k' : State, Legal k → k.phase ≠ .idle → k.err = false → PortFree k → PortFree k' →
    (∃ t, runProgram (assembled saveSeq) k = .next t ∧
      t = { k with host := { k.host with taken := k.host.taken ++
        ({ data := k.ctxWord, code := 0x00#8 } :: (List.range 25).map fun i =>
          { data := Lanes.get k.lanes i, code := 0x00#8 }) } }) ∧
    (∃ t, runProgram (assembled (restoreSeq k.ctxWord k.lanes)) k' = .next t ∧
      t = { k with host := { k'.host with taken := k'.host.taken ++ List.replicate 27 { data := 0#64, code := 0x00#8 } } })

/-- R265, R102: two cores that differ in what their hosts do alone answer every program alike, response by response, and
differ in that alone afterwards. -/
def Obligations.EqualCoresAnswerAlike : Prop :=
  ∀ (cs : List Command) (k t : State) (h : HostSide), runProgram cs k = .next t →
    ∃ (t' : State) (rs : List Response), runProgram cs { k with host := h } = .next t' ∧
      t.host.taken = k.host.taken ++ rs ∧ t'.host.taken = h.taken ++ rs ∧ t' = { t with host := t'.host }

/-- R235, R112: the `hash` pseudo-instruction, from any unlocked state with a free port, delivers the bytes of the
variant's sponge, for every message and every length the variant allows. -/
def Obligations.HashSequenceComputesTheSponge : Prop :=
  ∀ (id rate delim outlim : Byte) (msg : List Byte) (len : Nat) (s : State),
    variantRom id = some { rate := rate, delim := delim, outlim := outlim } →
    (outlim = 0#8 ∨ len ≤ outlim.toNat) → PortFree s → s.err = false →
    ∃ t, runProgram (assembled (hashSeq id msg len)) s = .next t ∧
      t.host.taken = s.host.taken ++
        List.replicate (2 + (absorbSeq msg).length) { data := 0#64, code := 0x00#8 } ++
        responseWords (spongeHash rate.toNat delim msg len)

/-! ### The permutation -/

/-- R148: the fused rho-and-pi step is pi after rho, on every state. -/
def Obligations.FusedRhoPiIsPiAfterRho : Prop := ∀ A : Lanes, rhoPi A = piStep (rho A)

/-- R143: pi by its formula, in both its forms, and by both its tables. -/
def Obligations.PiFollowsItsTables : Prop :=
  ∀ A : Lanes,
    (∀ x y : Fin 5, Lanes.at (piStep A) y (2 * x + 3 * y) = Lanes.at A x y ∧
      Lanes.at (piStep A) x y = Lanes.at A (x + 3 * y) x) ∧
    (∀ i, i < 25 →
      Lanes.get (piStep A) (piDest.getD i 0) = Lanes.get A i ∧ Lanes.get (piStep A) i = Lanes.get A (piSrc.getD i 0))

/-- R146, R147, R148, R149: the two ROMs hold what their generators give. -/
def Obligations.TablesAreWhatTheGeneratorsGive : Prop :=
  rotGenerated = rotTable ∧ (List.range 24).map rcGenerated = rcTable

/-- R151 (and vector V2 of the spec): the permutation of the zero state, once. -/
def Obligations.KeccakOfTheZeroState : Prop :=
  Lanes.get (keccakF1600 Lanes.zero) 0 = 0xF1258F7940E1DDE7#64 ∧
  Lanes.get (keccakF1600 Lanes.zero) 24 = 0xEAF1FF7B5CECA249#64

/-- R151: Keccak-f[1600] is a bijection on 1600-bit states. -/
def Obligations.KeccakIsABijection : Prop := Function.Bijective keccakF1600

/-- R152, R47: the engine, one round a step, computes Keccak-f[1600] in 24 steps, whatever is offered meanwhile. -/
def Obligations.EngineStepsComputeKeccak : Prop :=
  ∀ s : State, s.host.rst = false →
    Host.Core.run Sys2Proof.core 24 s.engineStart = .next { s with lanes := keccakF1600 s.lanes, engine := none }

/-! ### Byte order -/

/-- R71: at an offset that is a multiple of 8, with the block not filled, absorbing the 8 bytes of `cmd_data` XORs it
into one lane unchanged, and squeezing 8 bytes returns one lane unchanged. -/
def Obligations.AlignedTransfersAreWholeLanes : Prop :=
  ∀ (s : State) (i : Nat), s.err = false → s.engine = none → s.rate.toNat ≤ 200 → s.offset.toNat = 8 * i →
    (∀ data : Word64, s.phase = .absorb → 8 * i + 8 < s.rate.toNat → ∃ t, exec (.absorbN 8#8 data) s = .next t ∧
      ∀ j, j < 25 → Lanes.get t.lanes j = if j = i then Lanes.get s.lanes j ^^^ data else Lanes.get s.lanes j) ∧
    (s.phase = .squeeze → (s.outlim = 0#8 ∨ s.sqcnt.toNat + 8 ≤ s.outlim.toNat) → 8 * i + 8 ≤ s.rate.toNat →
      ∃ t, exec (.squeezeN 8#8) s = .next t ∧ t.rsp = some { data := Lanes.get s.lanes i, code := 0x00#8 } ∧ t.lanes = s.lanes)

/-- R13, R73: `MemRead` and `MemWrite` at every width the state has bytes for, byte by byte; and at a lane's eight bytes
they read and write the lane. -/
def Obligations.LanesAreTheirBytes : Prop :=
  ∀ A : Lanes,
    (∀ j n k : Nat, k < n → (Lanes.memRead A j n).extractLsb' (8 * k) 8 = Lanes.byte A (j + k)) ∧
    (∀ (j n : Nat) (v : BitVec (8 * n)), j + n ≤ 200 → ∀ i, i < 200 →
      Lanes.byte (Lanes.memWrite A j n v) i =
        if j ≤ i ∧ i < j + n then v.extractLsb' (8 * (i - j)) 8 else Lanes.byte A i) ∧
    (∀ (i : Nat) (v : Word64), i < 25 →
      Lanes.memRead A (8 * i) 8 = Lanes.get A i ∧ Lanes.memWrite A (8 * i) 8 v = Lanes.put A i v)

/-! ### The cycle level -/

/-- R340: an edge with `rst = 1` gives every piece of state its reset value, with `cmd_ready` and `rsp_valid` 0; and from
any state at all, `RESET_CYCLES` such edges and one with `rst = 0` leave the core out of reset and ready. -/
def Obligations.ResetEdgesResetTheCore : Prop :=
  (∀ (t : Timing) (slack : Nat) (p : Pins) (c : ClockState), p.rst = true →
    ∃ d, tick t slack p c = .next d ∧ AtResetValues d.core ∧ d.core.rsp = none ∧
      (d.outputs true).cmdReady = false ∧ (d.outputs true).rspValid = false) ∧
  (∀ (t : Timing) (c : ClockState) (p : Pins) (ps : List (Nat × Pins)) (slack : Nat),
    t.Valid → ps.length = t.resetCycles → (∀ q, q ∈ ps → q.2.rst = true) → p.rst = false →
    ∃ d, ticks t (ps ++ [(slack, p)]) c = .next d ∧ AtResetValues d.core ∧ d.core.rsp = none ∧ d.ready = true)

/-- R101, R102, R346: a command accepted at an edge answers as the transaction level does; its response is raised after
exactly its latency, at least R346's bound, and not before, whatever the host offers meanwhile. -/
def Obligations.CyclesRefineTransactions : Prop :=
  ∀ (t : Timing) (slack : Nat) (p : Pins) (ps : List (Nat × Pins)) (c : ClockState) (s' : State),
    t.Valid → c.ready = true → p.rst = false → p.cmdValid = true → (∀ q, q ∈ ps → q.2.rst = false) →
    runCommand p.cmd (c.core.drive { p with cmdValid := false }) = .next s' →
    ps.length ≤ permCount p.cmd (c.core.drive p) * t.permCycles + t.rspLatency + slack →
    ∃ d, ticks t ((slack, p) :: ps) c = .next d ∧ d.core.rsp = s'.rsp ∧ d.core.lanes = s'.lanes ∧
      d.core = { s' with host := d.core.host } ∧ d.core.host.taken = s'.host.taken ∧
      ((d.outputs false).rspValid = true ↔
        ps.length = permCount p.cmd (c.core.drive p) * t.permCycles + t.rspLatency + slack) ∧
      (d.outputs false).cmdReady = false

/-- R101, R345: a raised response stays as it is, and no command is accepted, until an edge at which the host takes it;
that edge delivers it. -/
def Obligations.RaisedResponseIsStableUntilTaken : Prop :=
  ∀ (t : Timing) (c : ClockState) (r : Response) (ps : List (Nat × Pins)) (slack : Nat) (p : Pins),
    c.outOfReset = true → c.left = 0 → c.core.engine = none → c.core.rsp = some r →
    (∀ q, q ∈ ps → q.2.rst = false ∧ q.2.rspReady = false) → p.rst = false → p.rspReady = true →
    (∃ d, ticks t ps c = .next d ∧ (d.outputs false).rsp = some r ∧ d.core = { c.core with host := d.core.host } ∧
      d.core.host.taken = c.core.host.taken) ∧
    (∃ d, ticks t (ps ++ [(slack, p)]) c = .next d ∧ d.core.rsp = none ∧
      d.core.host.taken = c.core.host.taken ++ [r] ∧ d.ready = true)

/-- R152, R346: the permutation counts of the cycle level in closed form, and that they count what runs: the lanes after a
byte step are the permutation, applied as often as its count says, of the lanes it XORed; counts add up along the steps
that follow one another; and each command counts 0 when it reports an error, its own count when it completes. -/
def Obligations.PermutationCounts : Prop :=
  (∀ rate off n : Nat, off < rate → absorbPerms n rate off = (off + n) / rate) ∧
  (∀ rate off n : Nat, 1 ≤ rate → off ≤ rate → 1 ≤ n → squeezePerms n rate off = (off + n - 1) / rate) ∧
  (∀ (b : Byte) (s t : State), absorbStep b s = .ok t →
    t.lanes = keccakPow (absorbPerms 1 s.rate.toNat s.offset.toNat) (Lanes.xorByte s.lanes s.offset.toNat b)) ∧
  (∀ (bs : List Byte) (n : Nat) (s t : State), absorbSteps bs s = .ok t →
    absorbPerms (bs.length + n) s.rate.toNat s.offset.toNat =
      absorbPerms bs.length s.rate.toNat s.offset.toNat + absorbPerms n t.rate.toNat t.offset.toNat) ∧
  (∀ (n : Nat) (bs : List Byte) (s t : State), squeezeSteps n s = .ok (bs, t) →
    t.lanes = keccakPow (squeezePerms n s.rate.toNat s.offset.toNat) s.lanes) ∧
  (∀ (c : Command) (s t : State) (r : Response), runCommand c s = .next t → t.rsp = some r →
    (r.code ≠ 0x00#8 → permCount c s = 0 ∧ t.lanes = s.lanes) ∧
    (r.code = 0x00#8 → ∃ i, decode c = .ok i ∧ PermutesLanes i (permCount c s) s t))

/-- R346: two cores that differ in their lanes alone answer with the same code, the same registers and the same number
of permutations, even for different input bytes. -/
def Obligations.TimingDoesNotDependOnData : Prop :=
  ∀ (c c' : Command) (s t : State) (A : Lanes), Legal s → c.word = c'.word →
    (decode c = .ok (.setCtx c.data) → c = c') → runCommand c s = .next t →
    ∃ t', runCommand c' { s with lanes := A } = .next t' ∧ t' = { t with lanes := t'.lanes, rsp := t'.rsp } ∧
      t'.rsp.map (·.code) = t.rsp.map (·.code) ∧ permCount c s = permCount c' { s with lanes := A }

/-! ### The assembler -/

/-- R111: lines of the syntax table and the pairs they assemble to. -/
def Obligations.AssemblerLines : Prop :=
  assembleLine "init sha3_256" = some { word := 0x00000710#32, data := 0#64 } ∧
  assembleLine "initc 3, 0x06" = some { word := 0x00030611#32, data := 0#64 } ∧
  assembleLine "absorb.b 0x41" = some { word := 0x00004120#32, data := 0#64 } ∧
  assembleLine "absorb.n 5, 0x0000006F6C6C6568" = some { word := 0x00050021#32, data := 0x0000006F6C6C6568#64 } ∧
  assembleLine "squeeze.n 8" = some { word := 0x00080030#32, data := 0#64 } ∧
  assembleLine "lane.w 16, 0x8000000000000000" = some { word := 0x00100041#32, data := 0x8000000000000000#64 } ∧
  assembleLine "setctx 0x0000002002000688" = some { word := 0x00000004#32, data := 0x0000002002000688#64 } ∧
  assembleLine "permute" = some { word := 0x00000040#32, data := 0#64 }
end

