-- ==== Sys2Proof/Laws/Decode.lean ====
section
/-! SUPPORT. The fields of an encoded word and the opcode map (spec/30_encoding.md R103, R107). -/

namespace Sys2Proof

theorem Op.ofCode_code (o : Op) : Op.ofCode o.code = some o := by cases o <;> decide

/-- An opcode byte names an opcode only if it is that opcode's code. -/
theorem Op.code_of_ofCode {b : Byte} {o : Op} (h : Op.ofCode b = some o) : o.code = b := by
  simpa using List.find?_some h

theorem Op.code_injective {o p : Op} (h : o.code = p.code) : o = p := by
  have ho := Op.ofCode_code o
  rw [h, Op.ofCode_code p] at ho
  exact (Option.some.inj ho).symm

@[simp] theorem commandWord_op (o : Op) (arg idx : Byte) (d : Word64) :
    (Command.mk (commandWord o arg idx) d).op = o.code := by
  unfold Command.op commandWord
  rw [BitVec.extractLsb'_append_eq_of_add_le (by decide)]
  simp

@[simp] theorem commandWord_arg (o : Op) (arg idx : Byte) (d : Word64) :
    (Command.mk (commandWord o arg idx) d).arg = arg := by
  unfold Command.arg commandWord
  rw [BitVec.extractLsb'_append_eq_of_le (by decide), BitVec.extractLsb'_append_eq_of_add_le (by decide)]
  simp

@[simp] theorem commandWord_idx (o : Op) (arg idx : Byte) (d : Word64) :
    (Command.mk (commandWord o arg idx) d).idx = idx := by
  unfold Command.idx commandWord
  rw [BitVec.extractLsb'_append_eq_of_le (by decide), BitVec.extractLsb'_append_eq_of_le (by decide),
    BitVec.extractLsb'_append_eq_of_add_le (by decide)]
  simp

@[simp] theorem commandWord_rsv (o : Op) (arg idx : Byte) (d : Word64) :
    (Command.mk (commandWord o arg idx) d).rsv = 0#8 := by
  unfold Command.rsv commandWord
  rw [BitVec.extractLsb'_append_eq_of_le (by decide), BitVec.extractLsb'_append_eq_of_le (by decide),
    BitVec.extractLsb'_append_eq_of_le (by decide)]
  simp

/-- A word that decodes: its opcode is assigned, `RSV` and the unused fields are 0, and the command has its fields
(R108). -/
theorem decode_ok {c : Command} {i : Instr} (h : decode c = .ok i) :
    ∃ o, Op.ofCode c.op = some o ∧ c.rsv = 0#8 ∧ (c.arg ≠ 0#8 → o.usesArg = true) ∧ (c.idx ≠ 0#8 → o.usesIdx = true) ∧
      i = Instr.ofFields o c.arg c.idx c.data := by
  unfold decode at h
  split at h
  · cases h
  · rename_i o ho
    refine ⟨o, ho, ?_⟩
    split at h
    · cases h
    · split at h
      · cases h
      · split at h
        · cases h
        · cases h; simp_all

@[simp] theorem Instr.ofFields_op (o : Op) (arg idx : Byte) (data : Word64) : (Instr.ofFields o arg idx data).op = o := by
  cases o <;> rfl

/-- A decoded command has the opcode its word names. -/
theorem decode_op {c : Command} {i : Instr} (h : decode c = .ok i) : i.op.code = c.op := by
  obtain ⟨o, ho, -, -, -, rfl⟩ := decode_ok h
  simpa using Op.code_of_ofCode ho

end Sys2Proof
end

