-- ==== Sys2Proof/Laws/Lanes.lean ====
section
/-! SUPPORT. The lane file's laws: a read after a write, the grid view, and the byte view (spec/00_scope.md R10, R11). -/

namespace Sys2Proof.Machine

theorem Lanes.get_eq_getElem (A : Lanes) (i : Nat) (h : i < 25) : Lanes.get A i = A[i] := by
  simp [Lanes.get, h]

theorem Lanes.get_of_not_lt (A : Lanes) (i : Nat) (h : ¬ i < 25) : Lanes.get A i = 0#64 := by
  simp [Lanes.get, List.getD_eq_getElem?_getD, Vector.getElem?_eq_none (Nat.le_of_not_lt h)]

/-- Two lane files with equal lanes are equal. -/
theorem Lanes.ext_get {A B : Lanes} (h : ∀ i, i < 25 → Lanes.get A i = Lanes.get B i) : A = B := by
  apply Vector.ext
  intro i hi
  simpa [Lanes.get_eq_getElem, hi] using h i hi

@[simp] theorem Lanes.get_put_self (A : Lanes) (i : Nat) (v : Lane) (h : i < 25) :
    Lanes.get (Lanes.put A i v) i = v := by
  simp [Lanes.get_eq_getElem _ _ h, Lanes.put]

theorem Lanes.get_put_ne (A : Lanes) (i j : Nat) (v : Lane) (h : i ≠ j) :
    Lanes.get (Lanes.put A i v) j = Lanes.get A j := by
  by_cases hj : j < 25
  · simp [Lanes.get_eq_getElem _ _ hj, Lanes.put, h]
  · simp [Lanes.get_of_not_lt _ _ hj]

@[simp] theorem Lanes.get_zero (i : Nat) : Lanes.get Lanes.zero i = 0#64 := by
  by_cases h : i < 25
  · simp [Lanes.get_eq_getElem _ _ h, Lanes.zero]
  · exact Lanes.get_of_not_lt _ _ h

/-! ### The grid -/

@[simp] theorem Lanes.at_ofGrid (f : Fin 5 → Fin 5 → Lane) (x y : Fin 5) : Lanes.at (Lanes.ofGrid f) x y = f x y := by
  match x, y with
  | 0, 0 | 0, 1 | 0, 2 | 0, 3 | 0, 4 | 1, 0 | 1, 1 | 1, 2 | 1, 3 | 1, 4 | 2, 0 | 2, 1 | 2, 2 | 2, 3 | 2, 4
  | 3, 0 | 3, 1 | 3, 2 | 3, 3 | 3, 4 | 4, 0 | 4, 1 | 4, 2 | 4, 3 | 4, 4 => rfl

/-- Lane files that agree on the grid are equal. -/
theorem Lanes.ext_at {A B : Lanes} (h : ∀ x y, Lanes.at A x y = Lanes.at B x y) : A = B := by
  apply Lanes.ext_get
  intro i hi
  have := h ⟨i % 5, by omega⟩ ⟨i / 5, by omega⟩
  simpa [Lanes.at, Nat.mod_add_div] using this

/-! ### Bytes of a word -/

theorem laneByte_laneWithByte_self (w : Word64) (k : Nat) (b : Byte) (h : k < 8) :
    laneByte (laneWithByte w k b) k = b := by
  apply BitVec.eq_of_getElem_eq
  intro i hi
  have : 8 * k + i < 64 := by omega
  simp [laneByte, laneWithByte, this, hi]
  interval_cases i <;> simp

theorem laneByte_laneWithByte_ne (w : Word64) (j k : Nat) (b : Byte) (h : j ≠ k) (hj : j < 8) :
    laneByte (laneWithByte w k b) j = laneByte w j := by
  apply BitVec.eq_of_getElem_eq
  intro i hi
  have : 8 * j + i < 64 := by omega
  simp only [laneByte, laneWithByte, BitVec.getElem_extractLsb', BitVec.getLsbD_or, BitVec.getLsbD_and,
    BitVec.getLsbD_not, BitVec.getLsbD_shiftLeft, this, decide_true, Bool.true_and]
  by_cases hlt : 8 * j + i < 8 * k
  · simp [hlt]
  · have h8 : 8 ≤ 8 * j + i - 8 * k := by omega
    have hb : (0xFF#64).getLsbD (8 * j + i - 8 * k) = false := by
      have h64 : 8 * j + i - 8 * k < 64 := by omega
      generalize 8 * j + i - 8 * k = m at h8 h64
      interval_cases m <;> rfl
    simp [hlt, hb, BitVec.getLsbD_of_ge b _ h8]

/-- Two words with equal bytes are equal. -/
theorem word_ext_laneByte {v w : Word64} (h : ∀ k, k < 8 → laneByte v k = laneByte w k) : v = w := by
  apply BitVec.eq_of_getLsbD_eq
  intro i hi
  have hk := congrArg (fun b => b.getLsbD (i % 8)) (h (i / 8) (by omega))
  simpa [laneByte, Nat.mod_lt, Nat.div_add_mod] using hk

/-! ### State bytes -/

theorem Lanes.byte_putByte_self (A : Lanes) (j : Nat) (b : Byte) (h : j < 200) :
    Lanes.byte (Lanes.putByte A j b) j = b := by
  have h25 : j / 8 < 25 := by omega
  simp [Lanes.byte, Lanes.putByte, h25, laneByte_laneWithByte_self _ _ _ (Nat.mod_lt j (by decide : 0 < 8))]

theorem Lanes.byte_putByte_ne (A : Lanes) (i j : Nat) (b : Byte) (h : i ≠ j) :
    Lanes.byte (Lanes.putByte A i b) j = Lanes.byte A j := by
  by_cases hd : i / 8 = j / 8
  · by_cases h25 : j / 8 < 25
    · have hm : j % 8 ≠ i % 8 := by omega
      simp [Lanes.byte, Lanes.putByte, hd, h25, laneByte_laneWithByte_ne _ _ _ _ hm (Nat.mod_lt j (by decide : 0 < 8))]
    · simp [Lanes.byte, Lanes.get_of_not_lt _ _ h25]
  · simp [Lanes.byte, Lanes.putByte, Lanes.get_put_ne _ _ _ _ hd]

/-- Absorbing a byte XORs it into its own state byte. -/
theorem Lanes.byte_xorByte_self (A : Lanes) (j : Nat) (b : Byte) (h : j < 200) :
    Lanes.byte (Lanes.xorByte A j b) j = Lanes.byte A j ^^^ b := Lanes.byte_putByte_self _ _ _ h

/-- Absorbing a byte leaves every other state byte alone. -/
theorem Lanes.byte_xorByte_ne (A : Lanes) (i j : Nat) (b : Byte) (h : i ≠ j) :
    Lanes.byte (Lanes.xorByte A i b) j = Lanes.byte A j := Lanes.byte_putByte_ne _ _ _ _ h

/-- Two lane files with equal bytes are equal. -/
theorem Lanes.ext_byte {A B : Lanes} (h : ∀ j, j < 200 → Lanes.byte A j = Lanes.byte B j) : A = B := by
  apply Lanes.ext_get
  intro i hi
  apply word_ext_laneByte
  intro k hk
  have := h (8 * i + k) (by omega)
  have hd : (8 * i + k) / 8 = i := by omega
  have hm : (8 * i + k) % 8 = k := by omega
  simpa [Lanes.byte, hd, hm] using this

/-! ### MemRead and MemWrite, at every width -/

/-- Byte `k` of `MemRead(j, n)` is `S[j+k]`. -/
theorem Lanes.memRead_byte (A : Lanes) (j : Nat) {n k : Nat} (h : k < n) :
    (Lanes.memRead A j n).extractLsb' (8 * k) 8 = Lanes.byte A (j + k) := by
  induction n with
  | zero => omega
  | succ n ih =>
    apply BitVec.eq_of_getLsbD_eq
    intro i hi
    have hlt : 8 * k + i < 8 * (n + 1) := by omega
    simp only [Lanes.memRead, BitVec.getLsbD_extractLsb', BitVec.getLsbD_or, BitVec.getLsbD_setWidth,
      BitVec.getLsbD_shiftLeft, hi, hlt, decide_true, Bool.true_and]
    by_cases hk : k = n
    · subst hk
      have h1 : ¬ 8 * k + i < 8 * k := by omega
      have h2 : 8 * k + i - 8 * k = i := by omega
      have h3 : i < 8 * (k + 1) := by omega
      simp [h1, h2, h3, BitVec.getLsbD_of_ge]
    · have h1 : 8 * k + i < 8 * n := by omega
      have := congrArg (fun b => b.getLsbD i) (ih (by omega))
      simpa [hi, h1] using this

/-- Writing bytes one after another writes each of them and no other byte. -/
theorem Lanes.byte_putBytes {w : Nat} (A : Lanes) (j : Nat) (v : BitVec w) {n i : Nat} (hi : i < 200) :
    Lanes.byte (Lanes.putBytes A j v n) i =
      if j ≤ i ∧ i < j + n then v.extractLsb' (8 * (i - j)) 8 else Lanes.byte A i := by
  induction n with
  | zero => rw [if_neg (by omega)]; rfl
  | succ n ih =>
    rw [Lanes.putBytes]
    by_cases h : i = j + n
    · subst h
      rw [Lanes.byte_putByte_self _ _ _ hi, if_pos (by omega), Nat.add_sub_cancel_left]
    · rw [Lanes.byte_putByte_ne _ _ _ _ (Ne.symm h), ih]
      by_cases h2 : j ≤ i ∧ i < j + n
      · rw [if_pos h2, if_pos (by omega)]
      · rw [if_neg h2, if_neg (by omega)]

end Sys2Proof.Machine
end

