-- ==== Sys2Proof/Laws/State.lean ====
section
/-! SUPPORT. What each update of the state does to each field, so that no later proof unfolds a record update. -/

namespace Sys2Proof.Machine

/-! ### State.answer -/

@[simp] theorem State.answer_lanes (s : State) (d : Word64) (c : Byte) : (s.answer d c).lanes = s.lanes := rfl
@[simp] theorem State.answer_rate (s : State) (d : Word64) (c : Byte) : (s.answer d c).rate = s.rate := rfl
@[simp] theorem State.answer_delim (s : State) (d : Word64) (c : Byte) : (s.answer d c).delim = s.delim := rfl
@[simp] theorem State.answer_offset (s : State) (d : Word64) (c : Byte) : (s.answer d c).offset = s.offset := rfl
@[simp] theorem State.answer_phase (s : State) (d : Word64) (c : Byte) : (s.answer d c).phase = s.phase := rfl
@[simp] theorem State.answer_outlim (s : State) (d : Word64) (c : Byte) : (s.answer d c).outlim = s.outlim := rfl
@[simp] theorem State.answer_sqcnt (s : State) (d : Word64) (c : Byte) : (s.answer d c).sqcnt = s.sqcnt := rfl
@[simp] theorem State.answer_err (s : State) (d : Word64) (c : Byte) : (s.answer d c).err = s.err := rfl
@[simp] theorem State.answer_errcode (s : State) (d : Word64) (c : Byte) : (s.answer d c).errcode = s.errcode := rfl
@[simp] theorem State.answer_errop (s : State) (d : Word64) (c : Byte) : (s.answer d c).errop = s.errop := rfl
@[simp] theorem State.answer_engine (s : State) (d : Word64) (c : Byte) : (s.answer d c).engine = s.engine := rfl
@[simp] theorem State.answer_rsp (s : State) (d : Word64) (c : Byte) :
    (s.answer d c).rsp = some { data := d, code := c } := rfl
@[simp] theorem State.answer_host (s : State) (d : Word64) (c : Byte) : (s.answer d c).host = s.host := rfl

/-! ### State.respond -/

@[simp] theorem State.respond_lanes (s : State) (d : Word64) : (s.respond d).lanes = s.lanes := rfl
@[simp] theorem State.respond_rate (s : State) (d : Word64) : (s.respond d).rate = s.rate := rfl
@[simp] theorem State.respond_delim (s : State) (d : Word64) : (s.respond d).delim = s.delim := rfl
@[simp] theorem State.respond_offset (s : State) (d : Word64) : (s.respond d).offset = s.offset := rfl
@[simp] theorem State.respond_phase (s : State) (d : Word64) : (s.respond d).phase = s.phase := rfl
@[simp] theorem State.respond_outlim (s : State) (d : Word64) : (s.respond d).outlim = s.outlim := rfl
@[simp] theorem State.respond_sqcnt (s : State) (d : Word64) : (s.respond d).sqcnt = s.sqcnt := rfl
@[simp] theorem State.respond_err (s : State) (d : Word64) : (s.respond d).err = s.err := rfl
@[simp] theorem State.respond_errcode (s : State) (d : Word64) : (s.respond d).errcode = s.errcode := rfl
@[simp] theorem State.respond_errop (s : State) (d : Word64) : (s.respond d).errop = s.errop := rfl
@[simp] theorem State.respond_engine (s : State) (d : Word64) : (s.respond d).engine = s.engine := rfl
@[simp] theorem State.respond_rsp (s : State) (d : Word64) :
    (s.respond d).rsp = some { data := d, code := codeNone } := rfl
@[simp] theorem State.respond_host (s : State) (d : Word64) : (s.respond d).host = s.host := rfl

/-! ### State.cleared -/

@[simp] theorem State.cleared_lanes (s : State) : s.cleared.lanes = Vector.replicate 25 0#64 := rfl
@[simp] theorem State.cleared_rate (s : State) : s.cleared.rate = 0#8 := rfl
@[simp] theorem State.cleared_delim (s : State) : s.cleared.delim = 0#8 := rfl
@[simp] theorem State.cleared_offset (s : State) : s.cleared.offset = 0#8 := rfl
@[simp] theorem State.cleared_phase (s : State) : s.cleared.phase = .idle := rfl
@[simp] theorem State.cleared_outlim (s : State) : s.cleared.outlim = 0#8 := rfl
@[simp] theorem State.cleared_sqcnt (s : State) : s.cleared.sqcnt = 0#8 := rfl
@[simp] theorem State.cleared_err (s : State) : s.cleared.err = false := rfl
@[simp] theorem State.cleared_errcode (s : State) : s.cleared.errcode = 0#8 := rfl
@[simp] theorem State.cleared_errop (s : State) : s.cleared.errop = 0#8 := rfl
@[simp] theorem State.cleared_engine (s : State) : s.cleared.engine = none := rfl
@[simp] theorem State.cleared_rsp (s : State) : s.cleared.rsp = none := rfl
@[simp] theorem State.cleared_host (s : State) : s.cleared.host = s.host := rfl

/-! ### State.deliver -/

@[simp] theorem State.deliver_lanes (s : State) (r : Response) : (s.deliver r).lanes = s.lanes := rfl
@[simp] theorem State.deliver_rate (s : State) (r : Response) : (s.deliver r).rate = s.rate := rfl
@[simp] theorem State.deliver_delim (s : State) (r : Response) : (s.deliver r).delim = s.delim := rfl
@[simp] theorem State.deliver_offset (s : State) (r : Response) : (s.deliver r).offset = s.offset := rfl
@[simp] theorem State.deliver_phase (s : State) (r : Response) : (s.deliver r).phase = s.phase := rfl
@[simp] theorem State.deliver_outlim (s : State) (r : Response) : (s.deliver r).outlim = s.outlim := rfl
@[simp] theorem State.deliver_sqcnt (s : State) (r : Response) : (s.deliver r).sqcnt = s.sqcnt := rfl
@[simp] theorem State.deliver_err (s : State) (r : Response) : (s.deliver r).err = s.err := rfl
@[simp] theorem State.deliver_errcode (s : State) (r : Response) : (s.deliver r).errcode = s.errcode := rfl
@[simp] theorem State.deliver_errop (s : State) (r : Response) : (s.deliver r).errop = s.errop := rfl
@[simp] theorem State.deliver_engine (s : State) (r : Response) : (s.deliver r).engine = s.engine := rfl
@[simp] theorem State.deliver_rsp (s : State) (r : Response) : (s.deliver r).rsp = none := rfl
@[simp] theorem State.deliver_host (s : State) (r : Response) :
    (s.deliver r).host = { s.host with taken := s.host.taken ++ [r] } := rfl

/-! ### State.accept -/

@[simp] theorem State.accept_lanes (s : State) (l : List Command) : (s.accept l).lanes = s.lanes := rfl
@[simp] theorem State.accept_rate (s : State) (l : List Command) : (s.accept l).rate = s.rate := rfl
@[simp] theorem State.accept_delim (s : State) (l : List Command) : (s.accept l).delim = s.delim := rfl
@[simp] theorem State.accept_offset (s : State) (l : List Command) : (s.accept l).offset = s.offset := rfl
@[simp] theorem State.accept_phase (s : State) (l : List Command) : (s.accept l).phase = s.phase := rfl
@[simp] theorem State.accept_outlim (s : State) (l : List Command) : (s.accept l).outlim = s.outlim := rfl
@[simp] theorem State.accept_sqcnt (s : State) (l : List Command) : (s.accept l).sqcnt = s.sqcnt := rfl
@[simp] theorem State.accept_err (s : State) (l : List Command) : (s.accept l).err = s.err := rfl
@[simp] theorem State.accept_errcode (s : State) (l : List Command) : (s.accept l).errcode = s.errcode := rfl
@[simp] theorem State.accept_errop (s : State) (l : List Command) : (s.accept l).errop = s.errop := rfl
@[simp] theorem State.accept_engine (s : State) (l : List Command) : (s.accept l).engine = s.engine := rfl
@[simp] theorem State.accept_rsp (s : State) (l : List Command) : (s.accept l).rsp = s.rsp := rfl
@[simp] theorem State.accept_host (s : State) (l : List Command) :
    (s.accept l).host = { s.host with offers := l } := rfl

/-! ### State.offerNow -/

@[simp] theorem State.offerNow_lanes (s : State) (c : Command) : (s.offerNow c).lanes = s.lanes := rfl
@[simp] theorem State.offerNow_rate (s : State) (c : Command) : (s.offerNow c).rate = s.rate := rfl
@[simp] theorem State.offerNow_delim (s : State) (c : Command) : (s.offerNow c).delim = s.delim := rfl
@[simp] theorem State.offerNow_offset (s : State) (c : Command) : (s.offerNow c).offset = s.offset := rfl
@[simp] theorem State.offerNow_phase (s : State) (c : Command) : (s.offerNow c).phase = s.phase := rfl
@[simp] theorem State.offerNow_outlim (s : State) (c : Command) : (s.offerNow c).outlim = s.outlim := rfl
@[simp] theorem State.offerNow_sqcnt (s : State) (c : Command) : (s.offerNow c).sqcnt = s.sqcnt := rfl
@[simp] theorem State.offerNow_err (s : State) (c : Command) : (s.offerNow c).err = s.err := rfl
@[simp] theorem State.offerNow_errcode (s : State) (c : Command) : (s.offerNow c).errcode = s.errcode := rfl
@[simp] theorem State.offerNow_errop (s : State) (c : Command) : (s.offerNow c).errop = s.errop := rfl
@[simp] theorem State.offerNow_engine (s : State) (c : Command) : (s.offerNow c).engine = none := rfl
@[simp] theorem State.offerNow_rsp (s : State) (c : Command) : (s.offerNow c).rsp = none := rfl
@[simp] theorem State.offerNow_host (s : State) (c : Command) :
    (s.offerNow c).host = { s.host with rst := false, offers := [c] } := rfl

/-! ### State.drive -/

@[simp] theorem State.drive_lanes (s : State) (p : Pins) : (s.drive p).lanes = s.lanes := rfl
@[simp] theorem State.drive_rate (s : State) (p : Pins) : (s.drive p).rate = s.rate := rfl
@[simp] theorem State.drive_delim (s : State) (p : Pins) : (s.drive p).delim = s.delim := rfl
@[simp] theorem State.drive_offset (s : State) (p : Pins) : (s.drive p).offset = s.offset := rfl
@[simp] theorem State.drive_phase (s : State) (p : Pins) : (s.drive p).phase = s.phase := rfl
@[simp] theorem State.drive_outlim (s : State) (p : Pins) : (s.drive p).outlim = s.outlim := rfl
@[simp] theorem State.drive_sqcnt (s : State) (p : Pins) : (s.drive p).sqcnt = s.sqcnt := rfl
@[simp] theorem State.drive_err (s : State) (p : Pins) : (s.drive p).err = s.err := rfl
@[simp] theorem State.drive_errcode (s : State) (p : Pins) : (s.drive p).errcode = s.errcode := rfl
@[simp] theorem State.drive_errop (s : State) (p : Pins) : (s.drive p).errop = s.errop := rfl
@[simp] theorem State.drive_engine (s : State) (p : Pins) : (s.drive p).engine = s.engine := rfl
@[simp] theorem State.drive_rsp (s : State) (p : Pins) : (s.drive p).rsp = s.rsp := rfl
@[simp] theorem State.drive_host (s : State) (p : Pins) :
    (s.drive p).host = { rst := p.rst, rspReady := p.rspReady, offers := if p.cmdValid then [p.cmd] else [], taken := s.host.taken } := rfl

/-! ### State.construct -/

@[simp] theorem State.construct_lanes (s : State) (r d o : Byte) : (s.construct r d o).lanes = Lanes.zero := rfl
@[simp] theorem State.construct_rate (s : State) (r d o : Byte) : (s.construct r d o).rate = r := rfl
@[simp] theorem State.construct_delim (s : State) (r d o : Byte) : (s.construct r d o).delim = d := rfl
@[simp] theorem State.construct_offset (s : State) (r d o : Byte) : (s.construct r d o).offset = 0#8 := rfl
@[simp] theorem State.construct_phase (s : State) (r d o : Byte) : (s.construct r d o).phase = .absorb := rfl
@[simp] theorem State.construct_outlim (s : State) (r d o : Byte) : (s.construct r d o).outlim = o := rfl
@[simp] theorem State.construct_sqcnt (s : State) (r d o : Byte) : (s.construct r d o).sqcnt = 0#8 := rfl
@[simp] theorem State.construct_err (s : State) (r d o : Byte) : (s.construct r d o).err = s.err := rfl
@[simp] theorem State.construct_errcode (s : State) (r d o : Byte) : (s.construct r d o).errcode = s.errcode := rfl
@[simp] theorem State.construct_errop (s : State) (r d o : Byte) : (s.construct r d o).errop = s.errop := rfl
@[simp] theorem State.construct_engine (s : State) (r d o : Byte) : (s.construct r d o).engine = s.engine := rfl
@[simp] theorem State.construct_rsp (s : State) (r d o : Byte) : (s.construct r d o).rsp = s.rsp := rfl
@[simp] theorem State.construct_host (s : State) (r d o : Byte) : (s.construct r d o).host = s.host := rfl

/-! ### State.withContext -/

@[simp] theorem State.withContext_lanes (s : State) (c : Word64) (p : Phase) :
    (s.withContext c p).lanes = s.lanes := rfl
@[simp] theorem State.withContext_rate (s : State) (c : Word64) (p : Phase) :
    (s.withContext c p).rate = ctxRate c := rfl
@[simp] theorem State.withContext_delim (s : State) (c : Word64) (p : Phase) :
    (s.withContext c p).delim = ctxDelim c := rfl
@[simp] theorem State.withContext_offset (s : State) (c : Word64) (p : Phase) :
    (s.withContext c p).offset = ctxOffset c := rfl
@[simp] theorem State.withContext_phase (s : State) (c : Word64) (p : Phase) : (s.withContext c p).phase = p := rfl
@[simp] theorem State.withContext_outlim (s : State) (c : Word64) (p : Phase) :
    (s.withContext c p).outlim = ctxOutlim c := rfl
@[simp] theorem State.withContext_sqcnt (s : State) (c : Word64) (p : Phase) :
    (s.withContext c p).sqcnt = ctxSqcnt c := rfl
@[simp] theorem State.withContext_err (s : State) (c : Word64) (p : Phase) : (s.withContext c p).err = s.err := rfl
@[simp] theorem State.withContext_errcode (s : State) (c : Word64) (p : Phase) :
    (s.withContext c p).errcode = s.errcode := rfl
@[simp] theorem State.withContext_errop (s : State) (c : Word64) (p : Phase) :
    (s.withContext c p).errop = s.errop := rfl
@[simp] theorem State.withContext_engine (s : State) (c : Word64) (p : Phase) :
    (s.withContext c p).engine = s.engine := rfl
@[simp] theorem State.withContext_rsp (s : State) (c : Word64) (p : Phase) : (s.withContext c p).rsp = s.rsp := rfl
@[simp] theorem State.withContext_host (s : State) (c : Word64) (p : Phase) :
    (s.withContext c p).host = s.host := rfl

/-! ### The latch and `raise` -/

theorem State.latch_of_err {s : State} (h : s.err = true) (c op : Byte) : s.latch c op = s := by simp [State.latch, h]

theorem State.latch_of_no_err {s : State} (h : s.err = false) (c op : Byte) :
    s.latch c op = { s with err := true, errcode := c, errop := op } := by simp [State.latch, h]

@[simp] theorem State.latch_err (s : State) (c op : Byte) : (s.latch c op).err = true := by
  unfold State.latch; split <;> simp_all

@[simp] theorem State.latch_lanes (s : State) (c op : Byte) : (s.latch c op).lanes = s.lanes := by
  unfold State.latch; split <;> rfl

@[simp] theorem State.latch_rate (s : State) (c op : Byte) : (s.latch c op).rate = s.rate := by
  unfold State.latch; split <;> rfl

@[simp] theorem State.latch_delim (s : State) (c op : Byte) : (s.latch c op).delim = s.delim := by
  unfold State.latch; split <;> rfl

@[simp] theorem State.latch_offset (s : State) (c op : Byte) : (s.latch c op).offset = s.offset := by
  unfold State.latch; split <;> rfl

@[simp] theorem State.latch_phase (s : State) (c op : Byte) : (s.latch c op).phase = s.phase := by
  unfold State.latch; split <;> rfl

@[simp] theorem State.latch_outlim (s : State) (c op : Byte) : (s.latch c op).outlim = s.outlim := by
  unfold State.latch; split <;> rfl

@[simp] theorem State.latch_sqcnt (s : State) (c op : Byte) : (s.latch c op).sqcnt = s.sqcnt := by
  unfold State.latch; split <;> rfl

@[simp] theorem State.latch_engine (s : State) (c op : Byte) : (s.latch c op).engine = s.engine := by
  unfold State.latch; split <;> rfl

@[simp] theorem State.latch_rsp (s : State) (c op : Byte) : (s.latch c op).rsp = s.rsp := by
  unfold State.latch; split <;> rfl

@[simp] theorem State.latch_host (s : State) (c op : Byte) : (s.latch c op).host = s.host := by
  unfold State.latch; split <;> rfl

@[simp] theorem State.raise_lanes (s : State) (e : ErrorCode) (op : Byte) : (s.raise e op).lanes = s.lanes := by
  simp [State.raise]

@[simp] theorem State.raise_rate (s : State) (e : ErrorCode) (op : Byte) : (s.raise e op).rate = s.rate := by
  simp [State.raise]

@[simp] theorem State.raise_delim (s : State) (e : ErrorCode) (op : Byte) : (s.raise e op).delim = s.delim := by
  simp [State.raise]

@[simp] theorem State.raise_offset (s : State) (e : ErrorCode) (op : Byte) : (s.raise e op).offset = s.offset := by
  simp [State.raise]

@[simp] theorem State.raise_phase (s : State) (e : ErrorCode) (op : Byte) : (s.raise e op).phase = s.phase := by
  simp [State.raise]

@[simp] theorem State.raise_outlim (s : State) (e : ErrorCode) (op : Byte) : (s.raise e op).outlim = s.outlim := by
  simp [State.raise]

@[simp] theorem State.raise_sqcnt (s : State) (e : ErrorCode) (op : Byte) : (s.raise e op).sqcnt = s.sqcnt := by
  simp [State.raise]

@[simp] theorem State.raise_err (s : State) (e : ErrorCode) (op : Byte) : (s.raise e op).err = true := by
  simp [State.raise]

@[simp] theorem State.raise_engine (s : State) (e : ErrorCode) (op : Byte) : (s.raise e op).engine = s.engine := by
  simp [State.raise]

@[simp] theorem State.raise_rsp (s : State) (e : ErrorCode) (op : Byte) : (s.raise e op).rsp = some { data := 0#64, code := e.code } := by
  simp [State.raise]

@[simp] theorem State.raise_host (s : State) (e : ErrorCode) (op : Byte) : (s.raise e op).host = s.host := by
  simp [State.raise]

/-- Raising keeps the first error (R301). -/
theorem State.raise_of_err {s : State} (h : s.err = true) (e : ErrorCode) (op : Byte) :
    s.raise e op = s.answer 0#64 e.code := by simp [State.raise, State.latch_of_err h]

/-- Raising with the latch clear records the code and the opcode (R301). -/
theorem State.raise_of_no_err {s : State} (h : s.err = false) (e : ErrorCode) (op : Byte) :
    s.raise e op = { s with err := true, errcode := e.code, errop := op,
                            rsp := some { data := 0#64, code := e.code } } := by
  simp [State.raise, State.latch_of_no_err h, State.answer]

/-! ### The lock -/

@[simp] theorem State.unlocked_of_no_err {s : State} (h : s.err = false) (r : Result) : s.unlocked r = r := by
  simp [State.unlocked, h]

@[simp] theorem State.unlocked_of_err {s : State} (h : s.err = true) (r : Result) :
    s.unlocked r = .next (s.answer 0#64 codeLocked) := by simp [State.unlocked, h]

/-! ### The counted output -/

@[simp] theorem State.countOutput_lanes (s : State) (n : Byte) : (s.countOutput n).lanes = s.lanes := by
  unfold State.countOutput; split <;> rfl

@[simp] theorem State.countOutput_rate (s : State) (n : Byte) : (s.countOutput n).rate = s.rate := by
  unfold State.countOutput; split <;> rfl

@[simp] theorem State.countOutput_delim (s : State) (n : Byte) : (s.countOutput n).delim = s.delim := by
  unfold State.countOutput; split <;> rfl

@[simp] theorem State.countOutput_offset (s : State) (n : Byte) : (s.countOutput n).offset = s.offset := by
  unfold State.countOutput; split <;> rfl

@[simp] theorem State.countOutput_phase (s : State) (n : Byte) : (s.countOutput n).phase = s.phase := by
  unfold State.countOutput; split <;> rfl

@[simp] theorem State.countOutput_outlim (s : State) (n : Byte) : (s.countOutput n).outlim = s.outlim := by
  unfold State.countOutput; split <;> rfl

@[simp] theorem State.countOutput_err (s : State) (n : Byte) : (s.countOutput n).err = s.err := by
  unfold State.countOutput; split <;> rfl

@[simp] theorem State.countOutput_errcode (s : State) (n : Byte) : (s.countOutput n).errcode = s.errcode := by
  unfold State.countOutput; split <;> rfl

@[simp] theorem State.countOutput_errop (s : State) (n : Byte) : (s.countOutput n).errop = s.errop := by
  unfold State.countOutput; split <;> rfl

@[simp] theorem State.countOutput_engine (s : State) (n : Byte) : (s.countOutput n).engine = s.engine := by
  unfold State.countOutput; split <;> rfl

@[simp] theorem State.countOutput_rsp (s : State) (n : Byte) : (s.countOutput n).rsp = s.rsp := by
  unfold State.countOutput; split <;> rfl

@[simp] theorem State.countOutput_host (s : State) (n : Byte) : (s.countOutput n).host = s.host := by
  unfold State.countOutput; split <;> rfl

theorem State.countOutput_sqcnt (s : State) (n : Byte) :
    (s.countOutput n).sqcnt = if s.outlim = 0#8 then s.sqcnt else s.sqcnt + n := by
  unfold State.countOutput; split <;> rfl

end Sys2Proof.Machine
end

