-- ==== Sys2Proof/Laws/Engine.lean ====
section
/-! SUPPORT. One invocation of the reference engine is Keccak-f[1600] of the lane file and nothing else
(spec/40_permutation.md R150, R152). -/

namespace Sys2Proof.Machine

/-- From round `r`, the `n = 24 - r` rounds that remain replace the lane file by the rest of the permutation. -/
theorem State.engineRounds_busy (n : Nat) :
    ∀ (s : State) (r : Fin 24) (work : Lanes), r.val + (n + 1) = 24 → s.engine = some { rnd := r, work := work } →
      State.engineRounds (n + 1) s =
        { s with lanes := (List.range' r.val (n + 1)).foldl round work, engine := none } := by
  induction n with
  | zero =>
    intro s r work hr he
    have : ¬ r.val + 1 < 24 := by omega
    simp [State.engineRounds, State.engineRound, he, this]
  | succ n ih =>
    intro s r work hr he
    have hlt : r.val + 1 < 24 := by omega
    rw [State.engineRounds, ih s.engineRound ⟨r.val + 1, hlt⟩ (round work r.val) (by simp; omega)
      (by simp [State.engineRound, he, hlt])]
    simp [State.engineRound, he, hlt, List.range'_succ]

/-- `KeccakF()` replaces the lane file by Keccak-f[1600] of it, leaves the engine idle, and changes nothing else
(R150). -/
theorem State.keccakF_eq (s : State) : s.keccakF = { s with lanes := keccakF1600 s.lanes, engine := none } := by
  rw [State.keccakF, State.engineRounds_busy 23 s.engineStart 0 s.lanes (by decide) rfl]
  simp [State.engineStart, keccakF1600, List.range_eq_range']

/-- A round of the engine changes the lane file and the engine alone. -/
theorem State.engineRound_frame (s : State) :
    s.engineRound = { s with lanes := s.engineRound.lanes, engine := s.engineRound.engine } := by
  unfold State.engineRound
  split
  · rfl
  · dsimp only; split <;> rfl

@[simp] theorem State.keccakF_lanes (s : State) : s.keccakF.lanes = keccakF1600 s.lanes := by rw [State.keccakF_eq]

@[simp] theorem State.keccakF_engine (s : State) : s.keccakF.engine = none := by rw [State.keccakF_eq]

@[simp] theorem State.keccakF_rate (s : State) : s.keccakF.rate = s.rate := by rw [State.keccakF_eq]

@[simp] theorem State.engineRound_rate (s : State) : s.engineRound.rate = s.rate := by rw [State.engineRound_frame]

@[simp] theorem State.keccakF_delim (s : State) : s.keccakF.delim = s.delim := by rw [State.keccakF_eq]

@[simp] theorem State.engineRound_delim (s : State) : s.engineRound.delim = s.delim := by rw [State.engineRound_frame]

@[simp] theorem State.keccakF_offset (s : State) : s.keccakF.offset = s.offset := by rw [State.keccakF_eq]

@[simp] theorem State.engineRound_offset (s : State) : s.engineRound.offset = s.offset := by rw [State.engineRound_frame]

@[simp] theorem State.keccakF_phase (s : State) : s.keccakF.phase = s.phase := by rw [State.keccakF_eq]

@[simp] theorem State.engineRound_phase (s : State) : s.engineRound.phase = s.phase := by rw [State.engineRound_frame]

@[simp] theorem State.keccakF_outlim (s : State) : s.keccakF.outlim = s.outlim := by rw [State.keccakF_eq]

@[simp] theorem State.engineRound_outlim (s : State) : s.engineRound.outlim = s.outlim := by rw [State.engineRound_frame]

@[simp] theorem State.keccakF_sqcnt (s : State) : s.keccakF.sqcnt = s.sqcnt := by rw [State.keccakF_eq]

@[simp] theorem State.engineRound_sqcnt (s : State) : s.engineRound.sqcnt = s.sqcnt := by rw [State.engineRound_frame]

@[simp] theorem State.keccakF_err (s : State) : s.keccakF.err = s.err := by rw [State.keccakF_eq]

@[simp] theorem State.engineRound_err (s : State) : s.engineRound.err = s.err := by rw [State.engineRound_frame]

@[simp] theorem State.keccakF_errcode (s : State) : s.keccakF.errcode = s.errcode := by rw [State.keccakF_eq]

@[simp] theorem State.engineRound_errcode (s : State) : s.engineRound.errcode = s.errcode := by rw [State.engineRound_frame]

@[simp] theorem State.keccakF_errop (s : State) : s.keccakF.errop = s.errop := by rw [State.keccakF_eq]

@[simp] theorem State.engineRound_errop (s : State) : s.engineRound.errop = s.errop := by rw [State.engineRound_frame]

@[simp] theorem State.keccakF_rsp (s : State) : s.keccakF.rsp = s.rsp := by rw [State.keccakF_eq]

@[simp] theorem State.engineRound_rsp (s : State) : s.engineRound.rsp = s.rsp := by rw [State.engineRound_frame]

@[simp] theorem State.keccakF_host (s : State) : s.keccakF.host = s.host := by rw [State.keccakF_eq]

@[simp] theorem State.engineRound_host (s : State) : s.engineRound.host = s.host := by rw [State.engineRound_frame]

end Sys2Proof.Machine
end

