-- ==== Sys2Proof/Laws/Ops.lean ====
section
/-! SUPPORT. What each shared byte step of the sponge does, said once (spec/41_sponge.md R210, R220, R230): where it
answers and with what, and what it leaves alone when it answers. -/

namespace Sys2Proof.Machine

/-! ### One byte access -/

theorem State.xorByte_ok (s : State) {j : Nat} (b : Byte) (h : j < 200) :
    s.xorByte j b = .ok { s with lanes := Lanes.xorByte s.lanes j b } := by simp [State.xorByte, h]

theorem State.readByte_ok (s : State) {j : Nat} (h : j < 200) : s.readByte j = .ok (Lanes.byte s.lanes j) := by
  simp [State.readByte, h]

/-- Advancing the block permutes it exactly when it is full. -/
theorem State.blockAdvance_eq (s : State) :
    s.blockAdvance =
      if s.offset + 1#8 = s.rate then { s with lanes := keccakF1600 s.lanes, engine := none, offset := 0#8 }
      else { s with offset := s.offset + 1#8 } := by
  unfold State.blockAdvance
  dsimp only
  split <;> simp [State.keccakF_eq]

/-- Refilling the block permutes it exactly when it is exhausted. -/
theorem State.blockRefill_eq (s : State) :
    s.blockRefill =
      if s.offset = s.rate then { s with lanes := keccakF1600 s.lanes, engine := none, offset := 0#8 } else s := by
  unfold State.blockRefill
  split <;> simp [State.keccakF_eq]

/-! ### Absorbing -/

theorem absorbStep_ok (b : Byte) {s : State} (h : s.offset.toNat < 200) :
    absorbStep b s = .ok { s with lanes := Lanes.xorByte s.lanes s.offset.toNat b }.blockAdvance := by
  simp [absorbStep, State.xorByte_ok s b h]

theorem absorbStep_stops (b : Byte) {s : State} (h : ¬ s.offset.toNat < 200) :
    absorbStep b s = .error .noSuchStateByte := by simp [absorbStep, State.xorByte, h]

/-- Absorbing a byte answers only where its state byte exists, and changes the lanes, `OFFSET` and the engine alone. -/
theorem absorbStep_frame {b : Byte} {s t : State} (h : absorbStep b s = .ok t) :
    s.offset.toNat < 200 ∧ t = { s with lanes := t.lanes, offset := t.offset, engine := t.engine } := by
  by_cases ho : s.offset.toNat < 200
  · rw [absorbStep_ok b ho, State.blockAdvance_eq] at h
    cases h
    exact ⟨ho, by split <;> rfl⟩
  · rw [absorbStep_stops b ho] at h
    cases h

/-- Absorbing bytes changes the lanes, `OFFSET` and the engine alone. -/
theorem absorbSteps_frame {bs : List Byte} :
    ∀ {s t : State}, absorbSteps bs s = .ok t →
      t = { s with lanes := t.lanes, offset := t.offset, engine := t.engine } := by
  induction bs with
  | nil => intro s t h; cases h; rfl
  | cons b bs ih =>
    intro s t h
    unfold absorbSteps at h
    cases hb : absorbStep b s with
    | error f => rw [hb] at h; cases h
    | ok s' =>
      rw [hb] at h
      have ht := ih h
      rw [(absorbStep_frame hb).2] at ht
      exact ht

theorem absorbSteps_append (bs cs : List Byte) :
    ∀ s : State, absorbSteps (bs ++ cs) s =
      match absorbSteps bs s with
      | .ok s' => absorbSteps cs s'
      | .error f => .error f := by
  induction bs with
  | nil => intro s; rfl
  | cons b bs ih =>
    intro s
    simp only [List.cons_append, absorbSteps]
    cases absorbStep b s with
    | ok s' => exact ih s'
    | error f => rfl

theorem absorbInto_offset_lt {rate : Nat} (hr : 0 < rate) (bs : List Byte) :
    ∀ (A : Lanes) (off : Nat), off < rate → (absorbInto rate bs (A, off)).2 < rate := by
  induction bs with
  | nil => intro A off h; exact h
  | cons b bs ih =>
    intro A off h
    unfold absorbInto
    split
    · exact ih _ _ hr
    · exact ih _ _ (by omega)

/-- With a legal rate and `OFFSET` inside the block, absorbing bytes answers, and acts on the lanes and `OFFSET` as
`absorbInto` does. -/
theorem absorbSteps_ok {rate : Nat} (hr : rate ≤ 200) (bs : List Byte) :
    ∀ s : State, s.engine = none → s.rate.toNat = rate → s.offset.toNat < rate →
      absorbSteps bs s = .ok
        { s with
          lanes := (absorbInto rate bs (s.lanes, s.offset.toNat)).1
          offset := BitVec.ofNat 8 (absorbInto rate bs (s.lanes, s.offset.toNat)).2 } := by
  induction bs with
  | nil => intro s he hs ho; simp [absorbSteps, absorbInto]
  | cons b bs ih =>
    intro s he hs ho
    have hlt : s.offset.toNat < 200 := by omega
    have hadd : (s.offset + 1#8).toNat = s.offset.toNat + 1 := by
      rw [BitVec.toNat_add]; simp; omega
    have hiff : s.offset + 1#8 = s.rate ↔ s.offset.toNat + 1 = rate := by
      rw [← BitVec.toNat_inj, hadd, hs]
    simp only [absorbSteps, absorbStep_ok b hlt, State.blockAdvance_eq, absorbInto, hiff]
    split
    · have h0 : (0#8).toNat < rate := by simp; omega
      simpa [he] using ih { s with
        lanes := keccakF1600 (Lanes.xorByte s.lanes s.offset.toNat b), engine := none, offset := 0#8 } rfl hs h0
    · have h1 : (s.offset + 1#8).toNat < rate := by omega
      simpa [hadd] using ih { s with
        lanes := Lanes.xorByte s.lanes s.offset.toNat b, offset := s.offset + 1#8 } he hs h1

/-! ### Padding -/

theorem pad_ok {s : State} (ho : s.offset.toNat < 200) (h1 : 1 ≤ s.rate.toNat) (h2 : s.rate.toNat ≤ 200) :
    pad s = .ok { s with
      lanes := Lanes.xorByte (Lanes.xorByte s.lanes s.offset.toNat s.delim) (s.rate.toNat - 1) 0x80#8 } := by
  have hz : s.rate ≠ 0#8 := by intro h; simp [h] at h1
  have hlt : s.rate.toNat - 1 < 200 := by omega
  simp [pad, State.xorByte_ok _ _ ho, hz, State.xorByte_ok _ _ hlt]

/-- Padding changes the lanes alone. -/
theorem pad_frame {s t : State} (h : pad s = .ok t) : t = { s with lanes := t.lanes } := by
  unfold pad State.xorByte at h
  split at h
  · rename_i s' hs
    split at hs
    · cases hs
      split at h
      · cases h
      · split at h
        · cases h; rfl
        · cases h
    · cases hs
  · cases h

/-! ### Squeezing -/

theorem squeezeStep_ok {s : State} (h : s.blockRefill.offset.toNat < 200) :
    squeezeStep s = .ok (Lanes.byte s.blockRefill.lanes s.blockRefill.offset.toNat,
      { s.blockRefill with offset := s.blockRefill.offset + 1#8 }) := by
  simp [squeezeStep, State.readByte_ok _ h]

/-- Squeezing a byte changes the lanes, `OFFSET` and the engine alone. -/
theorem squeezeStep_frame {s : State} {r : Byte × State} (h : squeezeStep s = .ok r) :
    r.2 = { s with lanes := r.2.lanes, offset := r.2.offset, engine := r.2.engine } := by
  unfold squeezeStep at h
  dsimp only at h
  split at h
  · cases h
    rw [State.blockRefill_eq]
    split <;> rfl
  · cases h

/-- Squeezing bytes changes the lanes, `OFFSET` and the engine alone. -/
theorem squeezeSteps_frame {n : Nat} :
    ∀ {s : State} {r : List Byte × State}, squeezeSteps n s = .ok r →
      r.2 = { s with lanes := r.2.lanes, offset := r.2.offset, engine := r.2.engine } := by
  induction n with
  | zero => intro s r h; cases h; rfl
  | succ n ih =>
    intro s r h
    unfold squeezeSteps at h
    cases hb : squeezeStep s with
    | error f => rw [hb] at h; cases h
    | ok p =>
      rw [hb] at h
      dsimp only at h
      cases hn : squeezeSteps n p.2 with
      | error f => rw [hn] at h; cases h
      | ok q =>
        rw [hn] at h
        cases h
        have hq := ih hn
        rw [squeezeStep_frame hb] at hq
        exact hq

theorem squeezeFrom_offset_le {rate : Nat} (hr : 0 < rate) (n : Nat) :
    ∀ (A : Lanes) (off : Nat), off ≤ rate → (squeezeFrom rate n (A, off)).2.2 ≤ rate := by
  induction n with
  | zero => intro A off h; exact h
  | succ n ih =>
    intro A off h
    unfold squeezeFrom
    split
    · exact ih _ _ hr
    · exact ih _ _ (by omega)

theorem squeezeFrom_length (rate n : Nat) :
    ∀ p : Lanes × Nat, (squeezeFrom rate n p).1.length = n := by
  induction n with
  | zero => intro p; rfl
  | succ n ih =>
    intro p
    unfold squeezeFrom
    split <;> simp [ih]

/-- With a legal rate and `OFFSET` at most `RATE`, squeezing answers, and acts on the lanes and `OFFSET` as
`squeezeFrom` does. -/
theorem squeezeSteps_ok {rate : Nat} (h1 : 1 ≤ rate) (hr : rate ≤ 200) (n : Nat) :
    ∀ s : State, s.engine = none → s.rate.toNat = rate → s.offset.toNat ≤ rate →
      squeezeSteps n s = .ok
        ((squeezeFrom rate n (s.lanes, s.offset.toNat)).1,
         { s with
           lanes := (squeezeFrom rate n (s.lanes, s.offset.toNat)).2.1
           offset := BitVec.ofNat 8 (squeezeFrom rate n (s.lanes, s.offset.toNat)).2.2 }) := by
  induction n with
  | zero => intro s he hs ho; simp [squeezeSteps, squeezeFrom]
  | succ n ih =>
    intro s he hs ho
    have hiff : s.offset = s.rate ↔ s.offset.toNat = rate := by rw [← BitVec.toNat_inj, hs]
    simp only [squeezeSteps, squeezeFrom]
    by_cases hfull : s.offset.toNat = rate
    · rw [squeezeStep_ok (by simp [State.blockRefill_eq, hiff, hfull])]
      simp only [State.blockRefill_eq, hiff, hfull, if_true]
      have ht := ih { s with lanes := keccakF1600 s.lanes, engine := none, offset := 0#8 + 1#8 } rfl hs h1
      simp only at ht
      rw [ht]
      simp [he]
    · have hlt : s.offset.toNat < 200 := by omega
      have hadd : (s.offset + 1#8).toNat = s.offset.toNat + 1 := by
        rw [BitVec.toNat_add]; simp; omega
      rw [squeezeStep_ok (by simpa [State.blockRefill_eq, hiff, hfull] using hlt)]
      simp only [State.blockRefill_eq, hiff, hfull, if_false]
      have ht := ih { s with offset := s.offset + 1#8 } he hs (by simp only [hadd]; omega)
      simp only at ht
      rw [ht]
      simp [hadd]

end Sys2Proof.Machine
end

