-- ==== Sys2Proof/Laws/Exec.lean ====
section
/-! SUPPORT. The three ways a command can end in a next state (spec/60_exceptions.md R302, R303), and that no command
looks at the host's side. -/

namespace Sys2Proof.Machine

/-- The three commands the lock lets through (R303). -/
abbrev passesLock (o : Op) : Prop := o = .nop ∨ o = .clear ∨ o = .readStatus

/-- How a command that answers has ended: locked out, with an error raised, or completed with a response. -/
abbrev Ended (i : Instr) (s t : State) : Prop :=
  (s.err = true ∧ ¬ passesLock i.op ∧ t = s.answer 0#64 codeLocked) ∨
  (s.err = false ∧ ∃ e : ErrorCode, t = s.raise e i.op.code) ∨
  ((s.err = false ∨ passesLock i.op) ∧ ∃ (u : State) (d : Word64), t = u.respond d ∧ u.host = s.host ∧
    (i ≠ .clear → u.err = s.err ∧ u.errcode = s.errcode ∧ u.errop = s.errop))

theorem finish_ok {r : Except Fault State} {g : State → State} {t : State} (h : finish r g = .next t) :
    ∃ u, r = .ok u ∧ t = g u := by
  cases r with
  | ok u => exact ⟨u, rfl, by simpa [finish] using h.symm⟩
  | error f => simp [finish] at h

/-- Every command that answers has ended in one of the three ways. -/
theorem exec_ended {i : Instr} {s t : State} (h : exec i s = .next t) : Ended i s t := by
  by_cases he : s.err = true
  · cases i <;>
      simp only [exec, execNop, execClear, execReadStatus, execReadCtx, execSetCtx, execInitVariant, execInitCustom,
        execAbsorbByte, execAbsorbN, execFinalize, execSqueezeN, execPermute, execLaneWrite, execLaneRead,
        State.unlocked_of_err he, Host.Outcome.next.injEq] at h
    case nop => exact .inr (.inr ⟨.inr (.inl rfl), s, _, h.symm, rfl, fun _ => ⟨rfl, rfl, rfl⟩⟩)
    case clear => exact .inr (.inr ⟨.inr (.inr (.inl rfl)), s.cleared, _, h.symm, rfl, fun hc => absurd rfl hc⟩)
    case readStatus => exact .inr (.inr ⟨.inr (.inr (.inr rfl)), s, _, h.symm, rfl, fun _ => ⟨rfl, rfl, rfl⟩⟩)
    all_goals exact .inl ⟨he, by simp [passesLock, Instr.op], h.symm⟩
  · have he : s.err = false := by simpa using he
    have raised : ∀ {e : ErrorCode} {o : Op}, i.op = o → raising s e o = .next t → Ended i s t := by
      intro e o ho hr
      exact .inr (.inl ⟨he, e, by rw [ho]; simpa [raising] using hr.symm⟩)
    have done : ∀ {u : State} {d : Word64}, u.respond d = t → u.host = s.host →
        (i ≠ .clear → u.err = s.err ∧ u.errcode = s.errcode ∧ u.errop = s.errop) → Ended i s t :=
      fun ht hh hl => .inr (.inr ⟨.inl he, _, _, ht.symm, hh, hl⟩)
    cases i <;>
      simp only [exec, execNop, execClear, execReadStatus, execReadCtx, execSetCtx, execInitVariant, execInitCustom,
        execAbsorbByte, execAbsorbN, execFinalize, execSqueezeN, execPermute, execLaneWrite, execLaneRead,
        State.unlocked_of_no_err he] at h
    case nop => exact done (Host.Outcome.next.inj h) rfl fun _ => ⟨rfl, rfl, rfl⟩
    case clear => exact done (Host.Outcome.next.inj h) rfl fun hc => absurd rfl hc
    case readStatus => exact done (Host.Outcome.next.inj h) rfl fun _ => ⟨rfl, rfl, rfl⟩
    case readCtx => exact done (Host.Outcome.next.inj h) rfl fun _ => ⟨rfl, rfl, rfl⟩
    case setCtx ctx =>
      split at h
      · exact raised rfl h
      · split at h
        · exact raised rfl h
        · exact done (Host.Outcome.next.inj h) rfl fun _ => ⟨rfl, rfl, rfl⟩
    case initVariant id =>
      split at h
      · exact raised rfl h
      · exact done (Host.Outcome.next.inj h) rfl fun _ => ⟨rfl, rfl, rfl⟩
    case initCustom delim rate =>
      split at h
      · exact raised rfl h
      · exact done (Host.Outcome.next.inj h) rfl fun _ => ⟨rfl, rfl, rfl⟩
    case absorbByte b =>
      split at h
      · exact raised rfl h
      · exact raised rfl h
      · obtain ⟨u, hu, ht⟩ := finish_ok h
        have hf := (absorbStep_frame hu).2
        refine done ht.symm ?_ fun _ => ⟨?_, ?_, ?_⟩ <;> rw [hf]
    case absorbN n data =>
      split at h
      · exact raised rfl h
      · exact raised rfl h
      · split at h
        · exact raised rfl h
        · obtain ⟨u, hu, ht⟩ := finish_ok h
          have hf := absorbSteps_frame hu
          refine done ht.symm ?_ fun _ => ⟨?_, ?_, ?_⟩ <;> rw [hf]
    case finalize =>
      split at h
      · exact raised rfl h
      · exact raised rfl h
      · obtain ⟨u, hu, ht⟩ := finish_ok h
        have hf := pad_frame hu
        refine done ht.symm ?_ fun _ => ⟨?_, ?_, ?_⟩ <;> simp only [State.enterSqueeze, State.keccakF_eq] <;> rw [hf]
    case squeezeN n =>
      split at h
      · exact raised rfl h
      · exact raised rfl h
      · split at h
        · exact raised rfl h
        · split at h
          · exact raised rfl h
          · split at h
            · cases h
            · rename_i hq
              have hf := squeezeSteps_frame hq
              dsimp only at hf
              refine done (Host.Outcome.next.inj h) ?_ fun _ => ⟨?_, ?_, ?_⟩ <;> simp <;> rw [hf]
    case permute =>
      split at h
      · exact raised rfl h
      · refine done (Host.Outcome.next.inj h) ?_ fun _ => ⟨?_, ?_, ?_⟩ <;> simp
    case laneWrite lane value =>
      split at h
      · exact raised rfl h
      · split at h
        · exact raised rfl h
        · exact done (Host.Outcome.next.inj h) rfl fun _ => ⟨rfl, rfl, rfl⟩
    case laneRead lane =>
      split at h
      · exact raised rfl h
      · exact done (Host.Outcome.next.inj h) rfl fun _ => ⟨rfl, rfl, rfl⟩

/-- No command changes the host's side. -/
theorem exec_host {i : Instr} {s t : State} (h : exec i s = .next t) : t.host = s.host := by
  obtain ⟨-, -, rfl⟩ | ⟨-, e, rfl⟩ | ⟨-, u, d, rfl, hu, -⟩ := exec_ended h
  · rfl
  · simp
  · simpa using hu

/-- Every command that answers leaves a response pending. -/
theorem exec_rsp {i : Instr} {s t : State} (h : exec i s = .next t) : ∃ r, t.rsp = some r := by
  obtain ⟨-, -, rfl⟩ | ⟨-, e, rfl⟩ | ⟨-, u, d, rfl, -, -⟩ := exec_ended h
  · exact ⟨_, rfl⟩
  · exact ⟨_, State.raise_rsp _ _ _⟩
  · exact ⟨_, rfl⟩

end Sys2Proof.Machine
end

