-- ==== Sys2Proof/Laws/Effect.lean ====
section
/-! SUPPORT. The effect of each command that answers, said once (spec/40_permutation.md, 41_sponge.md, 42_control.md):
an error or a lock writes the response and the latch alone, a completed command does what its rule says. -/

namespace Sys2Proof.Machine

/-- What a command that answers has done: nothing but a response with an error code and perhaps the latch, or its own
effect. -/
def Effect (i : Instr) (s t : State) : Prop :=
  (∃ d c e1 e2 e3, c ≠ codeNone ∧ t = { s with rsp := some ⟨d, c⟩, err := e1, errcode := e2, errop := e3 }) ∨
  (match i with
   | .nop | .readStatus | .readCtx => ∃ d, t = s.respond d
   | .clear => t = s.cleared.respond 0#64
   | .setCtx c => s.phase = .idle ∧ ∃ ph, ctxCheck c = some ph ∧ t = (s.withContext c ph).respond 0#64
   | .initVariant _ => ∃ a b c, t = (s.construct a b c).respond 0#64
   | .initCustom _ _ => ∃ a b c, t = (s.construct a b c).respond 0#64
   | .absorbByte b => s.phase = .absorb ∧ ∃ u, absorbStep b s = .ok u ∧ t = u.respond 0#64
   | .absorbN n d => s.phase = .absorb ∧ ∃ u, absorbSteps (dataBytes n.toNat d) s = .ok u ∧ t = u.respond 0#64
   | .finalize => s.phase = .absorb ∧ ∃ u, pad s = .ok u ∧ t = u.enterSqueeze.respond 0#64
   | .squeezeN n =>
     s.phase = .squeeze ∧ n.toNat ≤ 8 ∧ (s.outlim = 0#8 ∨ s.sqcnt.toNat + n.toNat ≤ s.outlim.toNat) ∧ ∃ bs u,
       squeezeSteps n.toNat s = .ok (bs, u) ∧ t = (u.countOutput n).respond (packBytes bs)
   | .permute => s.phase = .idle ∧ t = s.keccakF.respond 0#64
   | .laneWrite i v => s.phase = .idle ∧ i.toNat ≤ 24 ∧ t = ({ s with lanes := Lanes.put s.lanes i.toNat v }).respond 0#64
   | .laneRead i => i.toNat ≤ 24 ∧ t = s.respond (Lanes.get s.lanes i.toNat))

theorem ErrorCode.code_ne_none (e : ErrorCode) : e.code ≠ codeNone := by cases e <;> decide

/-- Raising an error changes the response and the latch alone, and its code is an error's. -/
theorem State.raise_form (s : State) (e : ErrorCode) (op : Byte) :
    ∃ d c e1 e2 e3, c ≠ codeNone ∧ s.raise e op = { s with rsp := some ⟨d, c⟩, err := e1, errcode := e2, errop := e3 } := by
  unfold State.raise State.latch State.answer
  split
  · exact ⟨_, _, s.err, s.errcode, s.errop, e.code_ne_none, rfl⟩
  · exact ⟨_, _, _, _, _, e.code_ne_none, rfl⟩

/-- Every command that answers has done this and nothing else. -/
theorem exec_effect {i : Instr} {s t : State} (h : exec i s = .next t) : Effect i s t := by
  have lk : ∀ r, s.unlocked r = .next t → r = .next t ∨ Effect i s t := by
    intro r hr; unfold State.unlocked at hr; split at hr
    · right; left; cases hr; exact ⟨_, _, s.err, s.errcode, s.errop, by decide, rfl⟩
    · exact .inl hr
  have rs : ∀ e o, raising s e o = .next t → Effect i s t := by
    intro e o hr; cases hr; left; exact State.raise_form _ _ _
  cases i
  case nop => cases h; right; exact ⟨_, rfl⟩
  case clear => cases h; right; exact rfl
  case readStatus => cases h; right; exact ⟨_, rfl⟩
  all_goals (rcases lk _ h with h | h; swap; exact h)
  case readCtx => cases h; right; exact ⟨_, rfl⟩
  case setCtx =>
    split at h
    · exact rs _ _ h
    · split at h
      · exact rs _ _ h
      · rename_i h1 _ _ h2
        cases h; right; exact ⟨not_not.1 h1, _, h2, rfl⟩
  case initVariant =>
    split at h
    · exact rs _ _ h
    · cases h; right; exact ⟨_, _, _, rfl⟩
  case initCustom =>
    split at h
    · exact rs _ _ h
    · cases h; right; exact ⟨_, _, _, rfl⟩
  case absorbByte =>
    split at h
    · exact rs _ _ h
    · exact rs _ _ h
    · obtain ⟨u, hu, ht⟩ := finish_ok h; right; exact ⟨‹_›, u, hu, ht⟩
  case absorbN =>
    split at h
    · exact rs _ _ h
    · exact rs _ _ h
    · split at h
      · exact rs _ _ h
      · obtain ⟨u, hu, ht⟩ := finish_ok h; right; exact ⟨‹_›, u, hu, ht⟩
  case finalize =>
    split at h
    · exact rs _ _ h
    · exact rs _ _ h
    · obtain ⟨u, hu, ht⟩ := finish_ok h; right; exact ⟨‹_›, u, hu, ht⟩
  case squeezeN =>
    split at h
    · exact rs _ _ h
    · exact rs _ _ h
    · split at h
      · exact rs _ _ h
      · rename_i hn
        split at h
        · exact rs _ _ h
        · rename_i hl
          split at h
          · cases h
          · cases h; right
            refine ⟨‹_›, by omega, ?_, _, _, ‹_›, rfl⟩
            by_cases hz : s.outlim = 0#8
            · exact .inl hz
            · right; by_contra hc; exact hl ⟨hz, by omega⟩
  case permute =>
    split at h
    · exact rs _ _ h
    · cases h; right; exact ⟨not_not.1 ‹_›, rfl⟩
  case laneWrite =>
    split at h
    · exact rs _ _ h
    · split at h
      · exact rs _ _ h
      · cases h; right; exact ⟨not_not.1 ‹_›, by omega, rfl⟩
  case laneRead =>
    split at h
    · exact rs _ _ h
    · cases h; right; exact ⟨by omega, rfl⟩


end Sys2Proof.Machine
end

