-- ==== Sys2Proof/Laws/Host.lean ====
section
/-! SUPPORT. No command looks at the host's side (spec/30_encoding.md R102: how the host waits changes no value), and one
step of a run of the core. -/

namespace Sys2Proof.Machine

/-- The state with another host side. -/
abbrev State.withHost (h : HostSide) (s : State) : State := { s with host := h }

/-- The answer with another host side. -/
def Result.withHost (h : HostSide) : Result → Result
  | .next t => .next (State.withHost h t)
  | .fault f => .fault f
  | .refused r => .refused r

theorem absorbStep_withHost (h) (b : Byte) (s : State) :
    absorbStep b (State.withHost h s) = (absorbStep b s).map (State.withHost h) := by
  by_cases ho : s.offset.toNat < 200
  · rw [absorbStep_ok b ho, absorbStep_ok b (s := State.withHost h s) ho]
    simp only [State.blockAdvance_eq]
    split <;> rfl
  · rw [absorbStep_stops b ho, absorbStep_stops b (s := State.withHost h s) ho]; rfl

theorem absorbSteps_withHost (h) (bs : List Byte) :
    ∀ (s : State), absorbSteps bs (State.withHost h s) = (absorbSteps bs s).map (State.withHost h) := by
  induction bs with
  | nil => intro s; rfl
  | cons b bs ih =>
    intro s
    simp only [absorbSteps, absorbStep_withHost]
    cases absorbStep b s with
    | error f => rfl
    | ok u => exact ih u

theorem pad_withHost (h) (s : State) : pad (State.withHost h s) = (pad s).map (State.withHost h) := by
  unfold pad State.xorByte
  by_cases h1 : s.offset.toNat < 200
  · simp only [h1, if_true]
    by_cases h2 : s.rate = 0#8
    · simp only [h2, if_true]; rfl
    · simp only [h2, if_false]
      by_cases h3 : s.rate.toNat - 1 < 200 <;> simp only [h3, if_true, if_false] <;> rfl
  · simp only [h1, if_false]; rfl

theorem squeezeStep_withHost (h) (s : State) :
    squeezeStep (State.withHost h s) = (squeezeStep s).map (fun p => (p.1, State.withHost h p.2)) := by
  unfold squeezeStep
  simp only [State.blockRefill_eq, State.withHost]
  by_cases h1 : s.offset = s.rate
  · simp only [h1, if_true]; rfl
  · simp only [h1, if_false, State.readByte]
    by_cases h2 : s.offset.toNat < 200
    · simp only [h2, if_true]; rfl
    · simp only [h2, if_false]; rfl

theorem squeezeSteps_withHost (h) (n : Nat) :
    ∀ (s : State), squeezeSteps n (State.withHost h s) = (squeezeSteps n s).map (fun p => (p.1, State.withHost h p.2)) := by
  induction n with
  | zero => intro s; rfl
  | succ n ih =>
    intro s
    simp only [squeezeSteps, squeezeStep_withHost]
    cases squeezeStep s with
    | error f => rfl
    | ok p =>
      simp only [Except.map, ih]
      cases squeezeSteps n p.2 with
      | error f => rfl
      | ok q => rfl

theorem unlocked_withHost (h) (s : State) (r r' : Result) (hr : r' = Result.withHost h r) :
    (State.withHost h s).unlocked r' = Result.withHost h (s.unlocked r) := by
  subst hr
  unfold State.unlocked
  show (if s.err then _ else _) = _
  split <;> rfl

theorem raising_withHost (h s e o) : raising (State.withHost h s) e o = Result.withHost h (raising s e o) := by
  unfold raising State.raise State.latch
  show _ = Host.Outcome.next _
  show (Host.Outcome.next ((if s.err then _ else _ : State).answer _ _) : Result) = _
  split <;> rfl

theorem exec_withHost (h : HostSide) (i : Instr) (s : State) :
    exec i (State.withHost h s) = Result.withHost h (exec i s) := by
  cases i
  case nop => rfl
  case clear => rfl
  case readStatus => rfl
  case readCtx => exact unlocked_withHost _ _ _ _ rfl
  case setCtx c =>
    refine unlocked_withHost _ _ _ _ ?_
    show (if s.phase ≠ .idle then _ else _) = _
    split
    · exact raising_withHost _ _ _ _
    · split
      · exact raising_withHost _ _ _ _
      · rfl
  case initVariant id =>
    refine unlocked_withHost _ _ _ _ ?_
    split
    · exact raising_withHost _ _ _ _
    · rfl
  case initCustom d r =>
    refine unlocked_withHost _ _ _ _ ?_
    split
    · exact raising_withHost _ _ _ _
    · rfl
  case absorbByte b =>
    refine unlocked_withHost _ _ _ _ ?_
    show (match s.phase with | .idle => _ | .squeeze => _ | .absorb => _) = _
    cases s.phase <;> simp only
    · exact raising_withHost _ _ _ _
    · rw [absorbStep_withHost]; cases absorbStep b s <;> rfl
    · exact raising_withHost _ _ _ _
  case absorbN n d =>
    refine unlocked_withHost _ _ _ _ ?_
    show (match s.phase with | .idle => _ | .squeeze => _ | .absorb => _) = _
    cases s.phase <;> simp only
    · exact raising_withHost _ _ _ _
    · split
      · exact raising_withHost _ _ _ _
      · rw [absorbSteps_withHost]; cases absorbSteps (dataBytes n.toNat d) s <;> rfl
    · exact raising_withHost _ _ _ _
  case finalize =>
    refine unlocked_withHost _ _ _ _ ?_
    show (match s.phase with | .idle => _ | .squeeze => _ | .absorb => _) = _
    cases s.phase <;> simp only
    · exact raising_withHost _ _ _ _
    · rw [pad_withHost]; cases pad s with
      | error f => rfl
      | ok u => simp only [Except.map, finish, Result.withHost, State.enterSqueeze, State.keccakF_eq]; rfl
    · exact raising_withHost _ _ _ _
  case squeezeN n =>
    refine unlocked_withHost _ _ _ _ ?_
    show (match s.phase with | .idle => _ | .absorb => _ | .squeeze => _) = _
    cases s.phase <;> simp only
    · exact raising_withHost _ _ _ _
    · exact raising_withHost _ _ _ _
    · split
      · exact raising_withHost _ _ _ _
      · show (if s.outlim ≠ 0#8 ∧ s.outlim.toNat < s.sqcnt.toNat + n.toNat then _ else _) = _
        split
        · exact raising_withHost _ _ _ _
        · rw [squeezeSteps_withHost]
          cases squeezeSteps n.toNat s with
          | error f => rfl
          | ok p =>
            obtain ⟨bs, u⟩ := p
            simp only [Except.map, Result.withHost, State.countOutput, State.withHost]
            split <;> rfl
  case permute =>
    refine unlocked_withHost _ _ _ _ ?_
    show (if s.phase ≠ .idle then _ else _) = _
    split
    · exact raising_withHost _ _ _ _
    · simp only [State.keccakF_eq]; rfl
  case laneWrite i v =>
    refine unlocked_withHost _ _ _ _ ?_
    show (if s.phase ≠ .idle then _ else _) = _
    split
    · exact raising_withHost _ _ _ _
    · split
      · exact raising_withHost _ _ _ _
      · rfl
  case laneRead i =>
    refine unlocked_withHost _ _ _ _ ?_
    split
    · exact raising_withHost _ _ _ _
    · rfl

theorem run_withHost (h : HostSide) (c : Command) (s : State) :
    runCommand c (State.withHost h s) = Result.withHost h (runCommand c s) := by
  unfold runCommand
  split
  · unfold State.raise State.latch
    show (Host.Outcome.next ((if s.err then _ else _ : State).answer _ _) : Result) = _
    split <;> rfl
  · exact exec_withHost _ _ _

/-- One step of a run. -/
theorem run_succ (M : Host.Core) (k : Nat) {s s' : M.State} (h : M.step s = .next s') :
    M.run (k + 1) s = M.run k s' := by
  rw [show M.run (k + 1) s = (match M.step s with
    | .next u => M.run k u
    | .fault r => .fault r
    | .refused r => .refused r) from rfl, h]

end Sys2Proof.Machine
end

