-- ==== Sys2Proof/Laws/Operands.lean ====
section
/-! SUPPORT. The operand forms: the bytes of a packed response word (spec/20_memory.md R71) and what SET_CTX accepts
(spec/42_control.md R264). -/

namespace Sys2Proof.Machine

/-- Byte `j` of a word packed from byte `k` up. -/
theorem laneByte_packFrom (bs : List Byte) :
    ∀ k j, j < 8 → laneByte (packFrom k bs) j = if k ≤ j then bs.getD (j - k) 0#8 else 0#8 := by
  induction bs with
  | nil => intro k j hj; simp [packFrom, laneByte]
  | cons b bs ih =>
    intro k j hj
    by_cases h : j = k
    · subst h; simp [packFrom, laneByte_laneWithByte_self _ _ _ hj]
    · rw [packFrom, laneByte_laneWithByte_ne _ _ _ _ h hj, ih _ _ hj]
      by_cases h2 : k ≤ j
      · have h3 : k + 1 ≤ j := by omega
        have : j - k = (j - (k+1)) + 1 := by omega
        simp [h2, h3, this]
      · have h3 : ¬ k + 1 ≤ j := by omega
        simp [h2, h3]

/-- Byte `j` of a response word is the `j`-th byte packed, and 0 beyond the last one. -/
theorem laneByte_packBytes (bs : List Byte) {j : Nat} (h : j < 8) : laneByte (packBytes bs) j = bs.getD j 0#8 := by
  rw [packBytes, laneByte_packFrom bs 0 j h]; simp

/-- Unpacking the bytes packed gives them back. -/
theorem dataBytes_packBytes (bs : List Byte) (h : bs.length ≤ 8) : dataBytes bs.length (packBytes bs) = bs := by
  apply List.ext_getElem
  · simp [dataBytes]
  · intro i h1 h2
    simp [dataBytes, laneByte_packBytes bs (show i < 8 by omega), h2]

@[simp] theorem dataBytes_length (n : Nat) (data : Word64) : (dataBytes n data).length = n := by simp [dataBytes]

/-- The range checks of SET_CTX as propositions. -/
theorem ctxInRange_iff (c : Word64) (ph : Phase) :
    ctxInRange c ph = true ↔
      ctxReservedLow c = 0#6 ∧ ctxReservedHigh c = 0#8 ∧ 1 ≤ (ctxRate c).toNat ∧ (ctxRate c).toNat ≤ 200 ∧
      (ph = .absorb → (ctxOffset c).toNat ≤ (ctxRate c).toNat - 1) ∧
      (ph = .squeeze → (ctxOffset c).toNat ≤ (ctxRate c).toNat) ∧
      (ctxOutlim c = 0#8 ∨ ph = .absorb → ctxSqcnt c = 0#8) ∧ (ctxSqcnt c).toNat ≤ (ctxOutlim c).toNat := by
  unfold ctxInRange
  cases ph <;> by_cases hz : ctxOutlim c = 0#8 <;> simp [and_assoc, hz]

/-- SET_CTX accepts a word with this phase exactly when the word names it and its range checks pass. -/
theorem ctxCheck_eq_some (c : Word64) (ph : Phase) :
    ctxCheck c = some ph ↔ ctxNewPhase c = some ph ∧ ctxInRange c ph = true := by
  unfold ctxCheck
  split
  · rename_i h; simp [h]
  · rename_i q h
    by_cases hr : ctxInRange c q = true
    · simp only [hr, if_true, h, Option.some.injEq]
      exact ⟨fun e => ⟨e, e ▸ hr⟩, And.left⟩
    · rw [if_neg hr, h]
      refine ⟨fun e => (nomatch e), fun ⟨e, he⟩ => absurd he ?_⟩
      cases e; exact hr

/-- The phase a word names, as its field. -/
theorem ctxNewPhase_eq_some (c : Word64) (ph : Phase) :
    ctxNewPhase c = some ph ↔ ph ≠ .idle ∧ ctxPhase c = ph.code := by
  unfold ctxNewPhase
  by_cases h1 : ctxPhase c = 1#2
  · rw [if_pos h1, h1]; cases ph <;> simp [Phase.code]
  · rw [if_neg h1]
    by_cases h2 : ctxPhase c = 2#2
    · rw [if_pos h2, h2]; cases ph <;> simp [Phase.code]
    · rw [if_neg h2]; cases ph <;> simp [Phase.code, h1, h2]

end Sys2Proof.Machine
end

