-- ==== Sys2Proof/Laws/PerInstr.lean ====
section
/-! SUPPORT. A property of every command as syntax, one lemma for each constructor: its encoded word has its opcode in
`OP`, 0 in `RSV`, and 0 in each field it does not use (spec/30_encoding.md R105, R107). -/

namespace Sys2Proof.Laws.EncodedFields

/-- The encoded word is a fully legal one in the fields the command does not choose. -/
def Statement (i : Instr) : Prop :=
  (encode i).op = i.op.code ∧ (encode i).rsv = 0#8 ∧ (i.op.usesArg = false → (encode i).arg = 0#8) ∧
    (i.op.usesIdx = false → (encode i).idx = 0#8) ∧ (i.op.readsData = false → (encode i).data = 0#64)

theorem nop : Statement .nop := by simp [Statement, encode, Instr.op]
theorem clear : Statement .clear := by simp [Statement, encode, Instr.op]
theorem readStatus : Statement .readStatus := by simp [Statement, encode, Instr.op]
theorem readCtx : Statement .readCtx := by simp [Statement, encode, Instr.op]
theorem setCtx (ctx : Word64) : Statement (.setCtx ctx) := by simp [Statement, encode, Instr.op, Op.readsData]
theorem initVariant (id : Byte) : Statement (.initVariant id) := by simp [Statement, encode, Instr.op, Op.usesArg]
theorem initCustom (delim rate : Byte) : Statement (.initCustom delim rate) := by
  simp [Statement, encode, Instr.op, Op.usesArg, Op.usesIdx]
theorem absorbByte (b : Byte) : Statement (.absorbByte b) := by simp [Statement, encode, Instr.op, Op.usesArg]
theorem absorbN (n : Byte) (data : Word64) : Statement (.absorbN n data) := by
  simp [Statement, encode, Instr.op, Op.usesIdx, Op.readsData]
theorem finalize : Statement .finalize := by simp [Statement, encode, Instr.op]
theorem squeezeN (n : Byte) : Statement (.squeezeN n) := by simp [Statement, encode, Instr.op, Op.usesIdx]
theorem permute : Statement .permute := by simp [Statement, encode, Instr.op]
theorem laneWrite (i : Byte) (value : Word64) : Statement (.laneWrite i value) := by
  simp [Statement, encode, Instr.op, Op.usesIdx, Op.readsData]
theorem laneRead (i : Byte) : Statement (.laneRead i) := by simp [Statement, encode, Instr.op, Op.usesIdx]

end Sys2Proof.Laws.EncodedFields
end

