-- ==== Sys2Proof/Laws/Port.lean ====
section
/-! SUPPORT. What one step can do, said once (spec/30_encoding.md R101, R102): every next state of a step is one of
these. -/

namespace Sys2Proof.Machine

/-- Performing an accepted command: a decode error is raised, or the command is executed. -/
abbrev Performed (c : Command) (s t : State) : Prop :=
  (∃ e, decode c = .error e ∧ t = s.raise (decodeErrorCode e) c.op) ∨ (∃ i, decode c = .ok i ∧ exec i s = .next t)

theorem runCommand_next {c : Command} {s t : State} (h : runCommand c s = .next t) : Performed c s t := by
  unfold runCommand at h
  split at h
  · rename_i e he
    exact .inl ⟨e, he, (Host.Outcome.next.inj h).symm⟩
  · rename_i i hi
    exact .inr ⟨i, hi, h⟩

/-- The events of a step. -/
theorem portStep_next {s t : State} (h : portStep s = .next t) :
    (s.host.rst = true ∧ t = s.cleared) ∨
    (s.host.rst = false ∧ s.engine ≠ none ∧ t = s.engineRound) ∨
    (∃ r, s.host.rst = false ∧ s.engine = none ∧ s.rsp = some r ∧ s.host.rspReady = true ∧ t = s.deliver r) ∨
    (∃ r, s.host.rst = false ∧ s.engine = none ∧ s.rsp = some r ∧ s.host.rspReady = false ∧ t = s) ∨
    (PortFree s ∧ s.host.offers = [] ∧ t = s) ∨
    (∃ c rest, PortFree s ∧ s.host.offers = c :: rest ∧ Performed c (s.accept rest) t) := by
  unfold portStep at h
  by_cases hr : s.host.rst = true
  · simp only [hr, if_true, Host.Outcome.next.injEq] at h
    exact .inl ⟨hr, h.symm⟩
  · have hr : s.host.rst = false := by simpa using hr
    simp only [hr, Bool.false_eq_true, if_false] at h
    split at h
    · rename_i e he
      exact .inr (.inl ⟨hr, by simp [he], (Host.Outcome.next.inj h).symm⟩)
    · rename_i he
      split at h
      · rename_i r hrsp
        by_cases hready : s.host.rspReady = true
        · simp only [hready, if_true, Host.Outcome.next.injEq] at h
          exact .inr (.inr (.inl ⟨r, hr, he, hrsp, hready, h.symm⟩))
        · simp only [hready, if_false, Host.Outcome.next.injEq, Bool.false_eq_true] at h
          exact .inr (.inr (.inr (.inl ⟨r, hr, he, hrsp, by simpa using hready, h.symm⟩)))
      · rename_i hrsp
        split at h
        · rename_i ho
          exact .inr (.inr (.inr (.inr (.inl ⟨⟨hr, he, hrsp⟩, ho, (Host.Outcome.next.inj h).symm⟩))))
        · rename_i c rest ho
          exact .inr (.inr (.inr (.inr (.inr ⟨c, rest, ⟨hr, he, hrsp⟩, ho, runCommand_next h⟩))))

/-- Performing a command leaves the host's side alone and a response pending. -/
theorem runCommand_port {c : Command} {s t : State} (h : runCommand c s = .next t) :
    t.host = s.host ∧ ∃ r, t.rsp = some r := by
  obtain ⟨e, -, rfl⟩ | ⟨i, -, hi⟩ := runCommand_next h
  · exact ⟨by simp, _, State.raise_rsp _ _ _⟩
  · exact ⟨exec_host hi, exec_rsp hi⟩

end Sys2Proof.Machine
end

