-- ==== Sys2Proof/Tests/Slice0.lean ====
section
/-! SUPPORT. Tests of the model, with expected values from spec/ (the vectors V and programs P of spec/95_test_vectors.md,
the encodings of spec/30_encoding.md R107), and a witness for the hypotheses of each statement. -/

namespace Sys2Proof.Tests

open Sys2Proof Sys2Proof.Machine

/-- The next state of an answer. -/
def after (o : Host.Outcome State Fault Refusal) : Option State :=
  match o with
  | .next s => some s
  | .fault _ => none
  | .refused _ => none

/-- One step with this command on the port. -/
def run1 (s : State) (word : Word32) (data : Word64) : Option State := after (step (s.offerNow { word := word, data := data }))

/-- The response pending after it. -/
def response (s : State) (word : Word32) (data : Word64) : Option Response := ((run1 s word data).bind State.rsp)

/-- A register of the state after it. -/
def reads {α : Type} (f : State → α) (s : State) (word : Word32) (data : Word64) : Option α := (run1 s word data).map f

/-- SHA3-256 in ABSORB at this offset, with zero lanes. -/
def absorbAt (off : Byte) : State :=
  { State.reset with rate := 136#8, delim := 0x06#8, outlim := 32#8, offset := off, phase := .absorb }

/-- SHA3-256 in SQUEEZE at this offset and count, with zero lanes. -/
def squeezeAt (off sc : Byte) : State :=
  { State.reset with rate := 136#8, delim := 0x06#8, outlim := 32#8, offset := off, sqcnt := sc, phase := .squeeze }

/-- SHAKE128 in SQUEEZE at this offset, with zero lanes. -/
def shakeAt (off : Byte) : State :=
  { State.reset with rate := 168#8, delim := 0x1F#8, offset := off, phase := .squeeze }

/-- The state after the error of P5: SQUEEZE, locked by an ABSORB_BYTE. -/
def locked : State := { squeezeAt 0#8 0#8 with err := true, errcode := 0x05#8, errop := 0x20#8 }

/-! ### Operand ranges (R105): an ill-formed command for each check -/

theorem test_wf_variant : (Instr.initVariant 10#8).wellFormed = false ∧ (Instr.initVariant 9#8).wellFormed = true := by decide
theorem test_wf_rate_zero : (Instr.initCustom 0x06#8 0#8).wellFormed = false := by decide
theorem test_wf_rate_high : (Instr.initCustom 0x06#8 201#8).wellFormed = false ∧ (Instr.initCustom 0x06#8 200#8).wellFormed = true := by decide
theorem test_wf_absorb_count : (Instr.absorbN 9#8 0#64).wellFormed = false ∧ (Instr.absorbN 8#8 0#64).wellFormed = true := by decide
theorem test_wf_squeeze_count : (Instr.squeezeN 9#8).wellFormed = false ∧ (Instr.squeezeN 8#8).wellFormed = true := by decide
theorem test_wf_lane_write : (Instr.laneWrite 25#8 0#64).wellFormed = false ∧ (Instr.laneWrite 24#8 0#64).wellFormed = true := by decide
theorem test_wf_lane_read : (Instr.laneRead 25#8).wellFormed = false ∧ (Instr.laneRead 24#8).wellFormed = true := by decide

/-! ### Decoding: one word of each row of R107, its fields RSV, IDX, ARG, OP written out bit by bit -/

theorem test_decode_nop : decode ⟨0b00000000_00000000_00000000_00000000#32, 7#64⟩ = .ok .nop := by decide
theorem test_decode_clear : decode ⟨0b00000000_00000000_00000000_00000001#32, 0#64⟩ = .ok .clear := by decide
theorem test_decode_read_status : decode ⟨0b00000000_00000000_00000000_00000010#32, 0#64⟩ = .ok .readStatus := by decide
theorem test_decode_read_ctx : decode ⟨0b00000000_00000000_00000000_00000011#32, 0#64⟩ = .ok .readCtx := by decide
theorem test_decode_set_ctx :
    decode ⟨0b00000000_00000000_00000000_00000100#32, 0x0000002001000688#64⟩ = .ok (.setCtx 0x0000002001000688#64) := by decide
theorem test_decode_init_variant :
    decode ⟨0b00000000_00000000_00000111_00010000#32, 0#64⟩ = .ok (.initVariant 7#8) := by decide
theorem test_decode_init_custom :
    decode ⟨0b00000000_11001000_00011111_00010001#32, 0#64⟩ = .ok (.initCustom 0x1F#8 200#8) := by decide
theorem test_decode_absorb_byte :
    decode ⟨0b00000000_00000000_01000001_00100000#32, 0#64⟩ = .ok (.absorbByte 0x41#8) := by decide
theorem test_decode_absorb_n :
    decode ⟨0b00000000_00000101_00000000_00100001#32, 0x0000006F6C6C6568#64⟩ = .ok (.absorbN 5#8 0x0000006F6C6C6568#64) := by
  decide
theorem test_decode_finalize : decode ⟨0b00000000_00000000_00000000_00101000#32, 0#64⟩ = .ok .finalize := by decide
theorem test_decode_squeeze_n :
    decode ⟨0b00000000_00001000_00000000_00110000#32, 0#64⟩ = .ok (.squeezeN 8#8) := by decide
theorem test_decode_permute : decode ⟨0b00000000_00000000_00000000_01000000#32, 0#64⟩ = .ok .permute := by decide
theorem test_decode_lane_write :
    decode ⟨0b00000000_00010000_00000000_01000001#32, 0x8000000000000000#64⟩ = .ok (.laneWrite 16#8 0x8000000000000000#64) := by
  decide
theorem test_decode_lane_read : decode ⟨0b00000000_00011000_00000000_01000010#32, 0#64⟩ = .ok (.laneRead 24#8) := by decide

/-- R108: the last unassigned opcode, also with its `RSV` set. -/
theorem test_decode_illegal :
    decode ⟨0x000000FF#32, 0#64⟩ = .error .illegalOpcode ∧ decode ⟨0xFF000005#32, 0#64⟩ = .error .illegalOpcode := by decide

/-- R108: `RSV`, an unused `ARG` and an unused `IDX`. -/
theorem test_decode_reserved :
    decode ⟨0x01000000#32, 0#64⟩ = .error .reservedField ∧ decode ⟨0x00000128#32, 0#64⟩ = .error .reservedField ∧
    decode ⟨0x00010020#32, 0#64⟩ = .error .reservedField := by decide

/-- The table's numbering of bits: `cmd_word` low, `cmd_data` above. -/
theorem test_table_word :
    decodeTableWord 96 (0x00050021 + 0x0000006F6C6C6568 * 2 ^ 32) = some (.absorbN 5#8 0x0000006F6C6C6568#64) ∧
    decodeTableWord 32 0x00050021 = some (.absorbN 5#8 0#64) ∧ decodeTableWord 32 0x000000FF = none := by decide

/-! ### Control commands (V10, V11, V18, P2, P5) -/

theorem test_nop_while_locked : response locked 0x00000000#32 0#64 = some ⟨0#64, 0x00#8⟩ := by decide
theorem test_clear_unlocks : reads State.statusWord locked 0x00000001#32 0#64 = some 0#64 := by decide
theorem test_read_status : response locked 0x00000002#32 0#64 = some ⟨0x0000000000200506#64, 0x00#8⟩ := by decide
theorem test_read_ctx : response (absorbAt 5#8) 0x00000003#32 0#64 = some ⟨0x4000002001050688#64, 0x00#8⟩ := by decide
theorem test_read_ctx_locked : response locked 0x00000003#32 0#64 = some ⟨0#64, 0x0B#8⟩ := by decide
theorem test_set_ctx :
    reads State.statusWord State.reset 0x00000004#32 0x0000202002200688#64 = some 0x2#64 ∧
    reads State.ctxWord State.reset 0x00000004#32 0xFF00002001000688#64 = some 0x4000002001000688#64 := by decide
theorem test_set_ctx_refused :
    reads State.statusWord State.reset 0x00000004#32 0x0000002005000688#64 = some 0x040A04#64 ∧
    reads State.statusWord State.reset 0x00000004#32 0x00000020010006C9#64 = some 0x040A04#64 := by decide

/-! ### Sponge commands (V10 to V15, P1) -/

theorem test_init_variant :
    reads State.ctxWord State.reset 0x00000610#32 0#64 = some 0x3800001C01000690#64 ∧
    reads State.ctxWord (squeezeAt 8#8 8#8) 0x00000710#32 0#64 = some 0x4000002001000688#64 := by decide
theorem test_init_variant_refused : reads State.statusWord State.reset 0x00000A10#32 0#64 = some 0x100304#64 := by decide
theorem test_init_custom : reads State.ctxWord State.reset 0x00030611#32 0#64 = some 0xC500000001000603#64 := by decide
theorem test_init_custom_refused : response State.reset 0x00C90611#32 0#64 = some ⟨0#64, 0x03#8⟩ := by decide

theorem test_absorb_byte :
    reads (fun s => (Lanes.get s.lanes 0, s.offset)) (absorbAt 0#8) 0x00004120#32 0#64 =
      some (0x0000000000000041#64, 1#8) := by decide +kernel
/-- V12: `RATE = 1`, so the byte fills the block. -/
theorem test_absorb_byte_permutes :
    reads (fun s => (Lanes.get s.lanes 0, s.offset)) (State.reset.construct 1#8 0x1F#8 0#8) 0x0000AB20#32 0#64 =
      some (0xA24042868CBF9A6C#64, 0#8) := by decide +kernel
theorem test_absorb_n :
    reads (fun s => (Lanes.get s.lanes 0, s.offset)) (absorbAt 0#8) 0x00050021#32 0xFFFFFF6F6C6C6568#64 =
      some (0x0000006F6C6C6568#64, 5#8) := by decide +kernel
/-- R305: the phase is checked before the count. -/
theorem test_absorb_n_priority : response (squeezeAt 0#8 0#8) 0x00090021#32 0#64 = some ⟨0#64, 0x05#8⟩ := by decide
/-- P1: SHA3-256 of the empty message. -/
theorem test_finalize :
    reads (fun s => (Lanes.get s.lanes 0, s.phase)) (absorbAt 0#8) 0x00000028#32 0#64 =
      some (0x66D71EBFF8C6FFA7#64, .squeeze) := by decide +kernel
/-- V13: both pad XORs on one byte, where a delimiter of 0x80 cancels. -/
theorem test_finalize_one_byte_pad :
    reads (fun s => (Lanes.get s.lanes 0, s.ctxWord))
      { State.reset.construct 8#8 0x80#8 0#8 with lanes := Lanes.put Lanes.zero 0 0x0007060504030201#64, offset := 7#8 }
      0x00000028#32 0#64 = some (0xB27A6490AD49B632#64, 0xC000000002008008#64) := by decide +kernel
/-- V2: the exhausted block is permuted before its next byte. -/
theorem test_squeeze_n_refills :
    (run1 (shakeAt 168#8) 0x00080030#32 0#64).map (fun s => (s.rsp, s.offset, s.sqcnt)) =
      some (some ⟨0xF1258F7940E1DDE7#64, 0x00#8⟩, 8#8, 0#8) := by decide +kernel
/-- R231: the digest's last byte, and one more. -/
theorem test_squeeze_n_limit :
    reads State.sqcnt (squeezeAt 31#8 31#8) 0x00010030#32 0#64 = some 32#8 ∧
    response (squeezeAt 32#8 32#8) 0x00010030#32 0#64 = some ⟨0#64, 0x08#8⟩ := by decide +kernel

/-! ### Raw-state commands and the permutation (V1 to V4, P3) -/

theorem test_permute :
    reads (fun s => (Lanes.get s.lanes 0, Lanes.get s.lanes 24)) State.reset 0x00000040#32 0#64 =
      some (0xF1258F7940E1DDE7#64, 0xEAF1FF7B5CECA249#64) := by decide +kernel
theorem test_permute_refused : reads State.statusWord (absorbAt 0#8) 0x00000040#32 0#64 = some 0x400905#64 := by decide
theorem test_lane_write :
    reads (fun s => (Lanes.get s.lanes 16, Lanes.get s.lanes 15)) State.reset 0x00100041#32 0x8000000000000000#64 =
      some (0x8000000000000000#64, 0#64) := by decide
theorem test_lane_write_priority : response (absorbAt 0#8) 0x00190041#32 0#64 = some ⟨0#64, 0x09#8⟩ := by decide
theorem test_lane_read :
    response { absorbAt 5#8 with lanes := Lanes.put Lanes.zero 24 0x0123456789ABCDEF#64 } 0x00180042#32 0#64 =
      some ⟨0x0123456789ABCDEF#64, 0x00#8⟩ := by decide
theorem test_lane_read_refused : response State.reset 0x00190042#32 0#64 = some ⟨0#64, 0x03#8⟩ := by decide

/-- V1. -/
theorem test_rotl64 :
    rotl64 0x8000000000000000#64 1 = 1#64 ∧ rotl64 0x0123456789ABCDEF#64 0 = 0x0123456789ABCDEF#64 ∧
    rotl64 0x0123456789ABCDEF#64 63 = 0x8091A2B3C4D5E6F7#64 := by decide
/-- V3: after theta, pi (also fused) and chi. -/
theorem test_sub_steps :
    let a := theta (Lanes.put Lanes.zero 0 1#64)
    Lanes.get a 6 = 1#64 ∧ Lanes.get a 24 = 2#64 ∧ Lanes.get a 2 = 0#64 ∧
    Lanes.get (rho a) 6 = 0x0000100000000000#64 ∧ Lanes.get (piStep (rho a)) 8 = 0x0000200000000000#64 ∧
    rhoPi a = piStep (rho a) ∧ Lanes.get (chi (piStep (rho a))) 3 = 1#64 ∧
    Lanes.get (chi (piStep (rho a))) 4 = 0x0000100000008000#64 := by decide +kernel
/-- V4. -/
theorem test_round_constants :
    Lanes.get (round Lanes.zero 1) 0 = 0x0000000000008082#64 ∧ Lanes.get (round Lanes.zero 23) 0 = 0x8000000080008008#64 ∧
    Lanes.get (round Lanes.zero 23) 1 = 0#64 := by decide +kernel

/-- R13: nine bytes at `S[191]` up to `S[199]`, the byte of highest offset most significant. -/
theorem test_mem_read_wide :
    Lanes.memRead (Lanes.put (Lanes.put Lanes.zero 24 0x0123456789ABCDEF#64) 23 0x7700000000000000#64) 191 9 =
      0x0123456789ABCDEF77#72 := by decide +kernel
theorem test_mem_write_wide :
    let A := Lanes.memWrite Lanes.zero 191 9 0x0123456789ABCDEF77#72
    Lanes.get A 23 = 0x7700000000000000#64 ∧ Lanes.get A 24 = 0x0123456789ABCDEF#64 ∧ Lanes.get A 22 = 0#64 := by
  decide +kernel

/-! ### The port and the cycle level (R101, R109, R340, R341, R346) -/

/-- R109: a decode error is reported while locked and does not change the latch. -/
theorem test_illegal_while_locked :
    (run1 locked 0x000000FF#32 0#64).map (fun s => (s.rsp, s.statusWord)) =
      some (some ⟨0#64, 0x01#8⟩, 0x0000000000200506#64) := by decide
theorem test_deliver :
    (after (step { State.reset with rsp := some ⟨5#64, 0x00#8⟩ })).map (fun s => (s.rsp, s.host.taken)) =
      some (none, [⟨5#64, 0x00#8⟩]) := by decide
theorem test_fetch_word : step (State.reset.withFetchWord 32 0x40) = exec .permute State.reset := rfl
/-- A core with NOP offered at every edge. -/
def nopPins : Pins := { rst := false, cmdValid := true, cmd := ⟨0#32, 0#64⟩, rspReady := false }
/-- The core after its reset edges. -/
def fresh : ClockState := { core := State.reset, left := 0, rstSeen := 0, outOfReset := true }
/-- With `RSP_LATENCY` 1 the response of a NOP is not raised in the cycle that accepts it but in the next. -/
theorem test_nop_latency :
    (match ticks Timing.reference [(0, nopPins)] fresh with | .next c => some (c.outputs false).rspValid | _ => none) = some false ∧
    (match ticks Timing.reference [(0, nopPins), (0, nopPins)] fresh with
      | .next c => some (c.outputs false).rspValid | _ => none) = some true := by decide
theorem test_perm_counts : absorbPerms 8 3 0 = 2 ∧ squeezePerms 8 1 0 = 7 ∧ squeezePerms 4 168 160 = 0 := by decide

/-! ### Witnesses: concrete states and operands that meet each statement's hypotheses -/

theorem witness_unlocked : State.reset.err = false ∧ State.reset.engine = none ∧ PortFree State.reset := by decide
theorem witness_decoded :
    decode ⟨0x00050021#32, 1#64⟩ = .ok (.absorbN 5#8 1#64) ∧ (Instr.absorbN 5#8 1#64).op.readsData = true := by decide
theorem witness_unread :
    (Command.mk 0#32 1#64).op.toNat ∉ [0x04, 0x21, 0x41] ∧
    (∀ k, k < (1#8).toNat → laneByte 0x01#64 k = laneByte 0xFF01#64 k) := by decide
theorem witness_step_runs :
    PortFree (State.reset.offerNow ⟨0#32, 0#64⟩) ∧ (State.reset.offerNow ⟨0#32, 0#64⟩).host.offers = [⟨0#32, 0#64⟩] ∧
    decode ⟨0#32, 0#64⟩ = .ok .nop := by decide
theorem witness_step_raises :
    decode ⟨0x05#32, 0#64⟩ = .error .illegalOpcode ∧ decode ⟨0x100#32, 0#64⟩ = .error .reservedField ∧
    PortFree (locked.offerNow ⟨0x05#32, 0#64⟩) ∧ PortFree (State.reset.offerNow ⟨0x100#32, 0#64⟩) := by decide
theorem witness_delivery :
    let s : State := { State.reset with rsp := some ⟨5#64, 0x00#8⟩ }
    s.host.rst = false ∧ s.engine = none ∧ s.rsp = some ⟨5#64, 0x00#8⟩ ∧ s.host.rspReady = true := by decide
theorem witness_stall :
    let s : State := { State.reset with rsp := some ⟨5#64, 0x00#8⟩, host := { HostSide.start with rspReady := false } }
    s.host.rst = false ∧ s.engine = none ∧ s.rsp = some ⟨5#64, 0x00#8⟩ ∧ s.host.rspReady = false := by decide
theorem witness_nothing_offered : State.reset.rsp = none ∧ State.reset.host.offers = [] := by decide
theorem witness_reset_input : ({ locked with host := { HostSide.start with rst := true } } : State).host.rst = true := by decide
theorem witness_program :
    let s := State.reset.offerNow ⟨0#32, 0#64⟩
    PortFree s ∧ s.host.rspReady = true ∧ s.host.offers = [⟨0#32, 0#64⟩] ∧
    ∃ t, runProgram [⟨0#32, 0#64⟩] { s with host := { s.host with offers := [] } } = .next t :=
  ⟨by decide, by decide, by decide, _, rfl⟩
theorem witness_set_ctx_phases :
    (absorbAt 0#8).phase ≠ .idle ∧ (absorbAt 0#8).err = false ∧ State.reset.phase = .idle := by decide
/-- Contexts at the ends of their ranges: ABSORB with `OFFSET = RATE - 1`, SQUEEZE with `OFFSET = RATE` and `SQCNT = OUTLIM`,
and one each just outside. -/
theorem witness_set_ctx_words :
    ctxCheck 0x0000002001870688#64 = some .absorb ∧ ctxCheck 0x0000202002880688#64 = some .squeeze ∧
    ctxCheck 0x0000002001880688#64 = none ∧ ctxCheck 0x0000002002890688#64 = none ∧
    ctxCheck 0x0000212002880688#64 = none := by decide
theorem witness_saved_context :
    Legal (squeezeAt 136#8 32#8) ∧ (squeezeAt 136#8 32#8).phase ≠ .idle ∧ Legal (absorbAt 135#8) ∧
    (absorbAt 135#8).phase ≠ .idle ∧ State.reset.phase = .idle :=
  ⟨by decide, by decide, by decide, by decide, by decide⟩
theorem witness_variant_ids : variantRom 9#8 = some ⟨72#8, 0x06#8, 64#8⟩ ∧ 9 < (10#8 : Byte).toNat := by decide
theorem witness_rates :
    1 ≤ (1#8 : Byte).toNat ∧ (200#8 : Byte).toNat ≤ 200 ∧ (0#8 : Byte).toNat = 0 ∧ 200 < (201#8 : Byte).toNat := by decide
theorem witness_absorb_phases :
    State.reset.phase = .idle ∧ (squeezeAt 0#8 0#8).phase = .squeeze ∧ (squeezeAt 0#8 0#8).err = false ∧
    (absorbAt 0#8).phase = .absorb ∧ (absorbAt 0#8).err = false ∧ (absorbAt 0#8).engine = none := by decide
theorem witness_absorb_block :
    InBlock (absorbAt 134#8) ∧ (absorbAt 134#8).offset.toNat + 1 < (absorbAt 134#8).rate.toNat ∧
    InBlock (absorbAt 135#8) ∧ (absorbAt 135#8).offset.toNat + 1 = (absorbAt 135#8).rate.toNat := by decide
theorem witness_counts : (8#8 : Byte).toNat ≤ 8 ∧ 8 < (9#8 : Byte).toNat := by decide
theorem witness_output :
    InOutput (shakeAt 168#8) ∧ (shakeAt 168#8).outlim = 0#8 ∧ InOutput (squeezeAt 31#8 31#8) ∧
    (squeezeAt 31#8 31#8).sqcnt.toNat + (1#8 : Byte).toNat ≤ (squeezeAt 31#8 31#8).outlim.toNat := by decide
theorem witness_output_limit :
    (squeezeAt 32#8 32#8).outlim ≠ 0#8 ∧ (squeezeAt 32#8 32#8).phase = .squeeze ∧
    (squeezeAt 32#8 32#8).outlim.toNat < (squeezeAt 32#8 32#8).sqcnt.toNat + (1#8 : Byte).toNat := by decide
theorem witness_lane_indices : (24#8 : Byte).toNat ≤ 24 ∧ 24 < (25#8 : Byte).toNat := by decide
theorem witness_locked :
    locked.err = true ∧ Instr.permute.op ≠ .nop ∧ Instr.permute.op ≠ .clear ∧ Instr.permute.op ≠ .readStatus := by decide
theorem witness_error :
    ∃ t r, runCommand ⟨0x05#32, 0#64⟩ State.reset = .next t ∧ t.rsp = some r ∧ r.code ≠ 0x00#8 ∧ State.reset.err = false :=
  ⟨_, _, rfl, rfl, by decide, by decide⟩
theorem witness_second_error :
    ∃ t r, runCommand ⟨0x05#32, 0#64⟩ locked = .next t ∧ t.rsp = some r ∧ r.code ≠ 0x00#8 ∧ locked.err = true :=
  ⟨_, _, rfl, rfl, by decide, by decide⟩
theorem witness_latched_step : locked.err = true ∧ ∃ t, step locked = .next t := ⟨by decide, _, rfl⟩
theorem witness_legal : Legal State.reset ∧ Legal locked ∧ Legal (squeezeAt 136#8 32#8) ∧ ∃ t, step locked = .next t :=
  ⟨by decide, by decide, by decide, _, rfl⟩
theorem witness_phase_change : ∃ t, exec (.initVariant 7#8) State.reset = .next t ∧ t.phase ≠ State.reset.phase :=
  ⟨_, rfl, by decide⟩
theorem witness_lane_change :
    ∃ t, exec (.laneWrite 24#8 1#64) State.reset = .next t ∧ State.reset.phase = .idle ∧ t.phase = .idle ∧
      t.lanes ≠ State.reset.lanes ∧ Instr.readCtx.op ∈ [Op.nop, .readStatus, .readCtx, .setCtx, .laneRead] :=
  ⟨_, rfl, by decide, by decide, by decide, by decide⟩
theorem witness_parameters :
    ∃ t, exec (.laneRead 24#8) (absorbAt 0#8) = .next t ∧
      (Instr.laneRead 24#8).op ∉ [Op.initVariant, .initCustom, .setCtx, .clear] := ⟨_, rfl, by decide⟩
theorem witness_byte_accesses :
    (∃ t, absorbStep 1#8 (absorbAt 0#8) = .ok t) ∧ (absorbAt 0#8).offset + 1#8 ≠ (absorbAt 0#8).rate ∧
    (∃ t, pad (absorbAt 135#8) = .ok t) ∧ (∃ b t, squeezeStep (squeezeAt 135#8 0#8) = .ok (b, t)) ∧
    (squeezeAt 135#8 0#8).offset ≠ (squeezeAt 135#8 0#8).rate :=
  ⟨⟨_, rfl⟩, by decide, ⟨_, rfl⟩, ⟨_, _, rfl⟩, by decide⟩
/-- A byte that fills the block and one that does not, padding at the last byte of the block, an exhausted output block. -/
theorem witness_rate_region :
    InBlock (absorbAt 134#8) ∧ (∃ t, absorbStep 1#8 (absorbAt 134#8) = .ok t) ∧ InBlock (absorbAt 135#8) ∧
    (∃ t, absorbStep 1#8 (absorbAt 135#8) = .ok t) ∧ (∃ t, pad (absorbAt 135#8) = .ok t) ∧
    InOutput (squeezeAt 135#8 0#8) ∧ (∃ b t, squeezeStep (squeezeAt 135#8 0#8) = .ok (b, t)) ∧
    InOutput (squeezeAt 136#8 0#8) ∧ (∃ b t, squeezeStep (squeezeAt 136#8 0#8) = .ok (b, t)) ∧
    136 ≤ 199 ∧ 199 < 200 :=
  ⟨by decide, ⟨_, rfl⟩, by decide, ⟨_, rfl⟩, ⟨_, rfl⟩, by decide, ⟨_, _, rfl⟩, by decide, ⟨_, _, rfl⟩, by decide, by decide⟩
theorem witness_reads :
    ∃ t r, exec (.laneRead 24#8) (absorbAt 0#8) = .next t ∧ t.rsp = some r ∧ r.code = 0x00#8 ∧
      (Instr.laneRead 24#8).op ∈ [Op.readStatus, .readCtx, .laneRead] := ⟨_, _, rfl, rfl, by decide, by decide⟩
theorem witness_streaming :
    (∀ i, i ∈ [Instr.absorbByte 1#8, .absorbN 8#8 2#64, .absorbN 0#8 0#64] → isAbsorb i = true) ∧ PortFree (absorbAt 0#8) ∧
    (absorbAt 0#8).phase = .absorb ∧ InBlock (absorbAt 0#8) ∧ (absorbAt 0#8).offset = 0#8 ∧
    (absorbAt 0#8).lanes = Lanes.zero := by decide
theorem witness_output_stream :
    let s : State := { shakeAt 0#8 with lanes := keccakF1600 Lanes.zero }
    s.engine = none ∧ 1 ≤ s.rate.toNat ∧ s.rate.toNat ≤ 200 ∧ s.offset = 0#8 ∧ s.lanes = keccakF1600 Lanes.zero :=
  ⟨rfl, by decide, by decide, rfl, rfl⟩
theorem witness_prefix : ∃ bs t, squeezeSteps 2 (shakeAt 0#8) = .ok (bs, t) := ⟨_, _, rfl⟩
theorem witness_fixed_digest :
    (squeezeAt 31#8 31#8).phase = .squeeze ∧ (squeezeAt 31#8 31#8).outlim ≠ 0#8 ∧
    (squeezeAt 31#8 31#8).outlim.toNat < (squeezeAt 31#8 31#8).rate.toNat ∧
    (squeezeAt 31#8 31#8).sqcnt = (squeezeAt 31#8 31#8).offset ∧
    (squeezeAt 31#8 31#8).sqcnt.toNat ≤ (squeezeAt 31#8 31#8).outlim.toNat ∧
    ∃ t, exec (.squeezeN 1#8) (squeezeAt 31#8 31#8) = .next t :=
  ⟨by decide, by decide, by decide, by decide, by decide, _, rfl⟩
theorem witness_duplication :
    Legal (absorbAt 135#8) ∧ (absorbAt 135#8).phase ≠ .idle ∧ (absorbAt 135#8).err = false ∧ PortFree (absorbAt 135#8) ∧
    PortFree locked := by decide
theorem witness_alike : ∃ t, runProgram [⟨0x00000710#32, 0#64⟩, ⟨0x00004120#32, 0#64⟩] State.reset = .next t := ⟨_, rfl⟩
theorem witness_hash :
    variantRom 7#8 = some { rate := 136#8, delim := 0x06#8, outlim := 32#8 } ∧ 32 ≤ (32#8 : Byte).toNat ∧
    variantRom 0#8 = some { rate := 168#8, delim := 0x1F#8, outlim := 0#8 } := by decide
theorem witness_engine : State.reset.host.rst = false := by decide
/-- The last byte of a value, and a value that ends at `S[199]`. -/
theorem witness_byte_ranges : 8 < 9 ∧ 191 + 9 ≤ 200 ∧ 199 < 200 ∧ 24 < 25 := by decide
theorem witness_aligned :
    (absorbAt 120#8).offset.toNat = 8 * 15 ∧ 8 * 15 + 8 < (absorbAt 120#8).rate.toNat ∧ (absorbAt 120#8).phase = .absorb ∧
    (shakeAt 160#8).offset.toNat = 8 * 20 ∧ 8 * 20 + 8 ≤ (shakeAt 160#8).rate.toNat ∧ (shakeAt 160#8).phase = .squeeze ∧
    (shakeAt 160#8).outlim = 0#8 := by decide
theorem witness_reset_edge : ({ nopPins with rst := true } : Pins).rst = true := by decide
/-- One edge with `rst` high, then one with it low. -/
theorem witness_reset_edges :
    Timing.reference.Valid ∧ [(0, { nopPins with rst := true })].length = Timing.reference.resetCycles ∧
    (∀ q, q ∈ [((0 : Nat), { nopPins with rst := true })] → q.2.rst = true) ∧ nopPins.rst = false := by decide
theorem witness_accepted :
    fresh.ready = true ∧ nopPins.rst = false ∧ nopPins.cmdValid = true ∧
    (∃ s', runCommand nopPins.cmd (fresh.core.drive { nopPins with cmdValid := false }) = .next s') ∧
    [(0, nopPins)].length ≤
      permCount nopPins.cmd (fresh.core.drive nopPins) * Timing.reference.permCycles + Timing.reference.rspLatency + 0 :=
  ⟨by decide, by decide, by decide, ⟨_, rfl⟩, by decide⟩
theorem witness_raised :
    let c : ClockState := { fresh with core := { State.reset with rsp := some ⟨5#64, 0x00#8⟩ } }
    c.outOfReset = true ∧ c.left = 0 ∧ c.core.engine = none ∧ c.core.rsp = some ⟨5#64, 0x00#8⟩ ∧
    (∀ q, q ∈ [((0 : Nat), nopPins)] → q.2.rst = false ∧ q.2.rspReady = false) ∧
    ({ nopPins with rspReady := true } : Pins).rspReady = true := by decide
theorem witness_perm_counts :
    135 < 136 ∧ 1 ≤ 136 ∧ 136 ≤ 136 ∧ (∃ t, absorbSteps [1#8, 2#8] (absorbAt 135#8) = .ok t) ∧
    (∃ bs t, squeezeSteps 2 (shakeAt 167#8) = .ok (bs, t)) ∧
    (∃ t r, runCommand ⟨0x40#32, 0#64⟩ State.reset = .next t ∧ t.rsp = some r ∧ r.code = 0x00#8) ∧
    (∃ t r, runCommand ⟨0x28#32, 0#64⟩ State.reset = .next t ∧ t.rsp = some r ∧ r.code ≠ 0x00#8) :=
  ⟨by decide, by decide, by decide, ⟨_, rfl⟩, ⟨_, _, rfl⟩, ⟨_, _, rfl, rfl, rfl⟩, ⟨_, _, rfl, rfl, by decide⟩⟩
theorem witness_data_independence :
    Legal (absorbAt 0#8) ∧ (Command.mk 0x00080021#32 1#64).word = (Command.mk 0x00080021#32 2#64).word ∧
    decode ⟨0x00080021#32, 1#64⟩ ≠ .ok (.setCtx 1#64) ∧ ∃ t, runCommand ⟨0x00080021#32, 1#64⟩ (absorbAt 0#8) = .next t :=
  ⟨by decide, rfl, by decide, _, rfl⟩

end Sys2Proof.Tests
end

section
/-! PROOFS. The lane view and the byte view of the lane file agree (spec/00_scope.md R11, R13): the bytes of a lane, and
`MemRead` and `MemWrite` at a lane's eight bytes. -/

namespace Sys2Proof.Machine

/-! ### A lane and its eight bytes -/

theorem Lanes.byte_of_lane (A : Lanes) (i : Nat) {k : Nat} (h : k < 8) :
    Lanes.byte A (8 * i + k) = laneByte (Lanes.get A i) k := by
  have hdiv : (8 * i + k) / 8 = i := by omega
  have hmod : (8 * i + k) % 8 = k := by omega
  rw [Lanes.byte, hdiv, hmod]

theorem Lanes.byte_put (A : Lanes) {i : Nat} (v : Lane) (j : Nat) (h : i < 25) :
    Lanes.byte (Lanes.put A i v) j = if j / 8 = i then laneByte v (j % 8) else Lanes.byte A j := by
  by_cases hj : j / 8 = i
  · simp [Lanes.byte, hj, h]
  · rw [if_neg hj, Lanes.byte, Lanes.get_put_ne _ _ _ _ (Ne.symm hj), ← Lanes.byte]

theorem Lanes.memRead_lane (A : Lanes) (i : Nat) : Lanes.memRead A (8 * i) 8 = Lanes.get A i := by
  apply word_ext_laneByte
  intro k hk
  calc laneByte (Lanes.memRead A (8 * i) 8) k
      = Lanes.byte A (8 * i + k) := Lanes.memRead_byte A (8 * i) hk
    _ = laneByte (Lanes.get A i) k := Lanes.byte_of_lane A i hk

theorem Lanes.memWrite_lane (A : Lanes) {i : Nat} (v : Word64) (h : i < 25) :
    Lanes.memWrite A (8 * i) 8 v = Lanes.put A i v := by
  apply Lanes.ext_byte
  intro j hj
  rw [Lanes.memWrite, Lanes.byte_putBytes _ _ _ hj, Lanes.byte_put _ _ _ h]
  by_cases hlane : j / 8 = i
  · have hoff : j - 8 * i = j % 8 := by omega
    rw [if_pos (by omega), if_pos hlane, hoff, laneByte]
  · rw [if_neg (by omega), if_neg hlane]

/-- Settles O54: byte by byte from the laws of `memRead` and `putBytes`, and at a lane's eight bytes because words with
equal bytes, and lane files with equal bytes, are equal. -/
theorem lanesAreTheirBytes : Obligations.LanesAreTheirBytes := by
  unfold Obligations.LanesAreTheirBytes
  intro A
  refine ⟨?reads, ?writes, ?lane⟩
  case reads => exact fun j _ _ hk => Lanes.memRead_byte A j hk
  case writes => exact fun j _ v _ _ hi => Lanes.byte_putBytes A j v hi
  case lane => exact fun i v hi => ⟨Lanes.memRead_lane A i, Lanes.memWrite_lane A v hi⟩

end Sys2Proof.Machine
end

section
/-! PROOFS. What a command and a step do to the error latch (spec/10_state.md R39, spec/60_exceptions.md R301, R307). -/

namespace Sys2Proof.Machine

/-- The latch is as it was. -/
abbrev LatchKept (s t : State) : Prop := t.err = s.err ∧ t.errcode = s.errcode ∧ t.errop = s.errop

/-- The latch has recorded its first error. -/
abbrev LatchSet (s t : State) : Prop := s.err = false ∧ t.err = true

/-- The latch is at its reset value. -/
abbrev LatchReset (t : State) : Prop := t.err = false ∧ t.errcode = 0x00#8 ∧ t.errop = 0x00#8

theorem State.raise_latch (s : State) (e : ErrorCode) (op : Byte) :
    LatchKept s (s.raise e op) ∨ LatchSet s (s.raise e op) := by
  cases he : s.err
  · exact .inr ⟨he, by simp⟩
  · rw [State.raise_of_err he]
    exact .inl ⟨rfl, rfl, rfl⟩

/-- What a command that answers does to the latch (R301, R307). -/
theorem exec_latch {i : Instr} {s t : State} (h : exec i s = .next t) :
    LatchKept s t ∨ LatchSet s t ∨ (i = .clear ∧ LatchReset t) := by
  by_cases hi : i = .clear
  · subst hi
    cases h
    exact .inr (.inr ⟨rfl, rfl, rfl, rfl⟩)
  · obtain ⟨-, -, rfl⟩ | ⟨-, e, rfl⟩ | ⟨-, u, d, rfl, -, hu⟩ := exec_ended h
    · exact .inl ⟨rfl, rfl, rfl⟩
    · exact (State.raise_latch s e i.op.code).imp_right .inl
    · exact .inl (hu hi)

theorem Performed.latch {c : Command} {s t : State} (h : Performed c s t) :
    LatchKept s t ∨ LatchSet s t ∨ (decode c = .ok .clear ∧ LatchReset t) := by
  obtain ⟨e, -, rfl⟩ | ⟨i, hd, hi⟩ := h
  · exact (State.raise_latch s _ c.op).imp_right .inl
  · refine (exec_latch hi).imp_right (Or.imp_right ?_)
    rintro ⟨rfl, ht⟩
    exact ⟨hd, ht⟩

/-- What a step does to the latch: nothing, the first error, or its reset value by reset or an accepted CLEAR (R307). -/
theorem step_latch {s t : State} (h : step s = .next t) :
    LatchKept s t ∨ LatchSet s t ∨
      (LatchReset t ∧ (s.host.rst = true ∨
        (PortFree s ∧ ∃ c rest, s.host.offers = c :: rest ∧ decode c = .ok .clear))) := by
  obtain ⟨hr, rfl⟩ | ⟨-, -, rfl⟩ | ⟨r, -, -, -, -, rfl⟩ | ⟨r, -, -, -, -, rfl⟩ | ⟨-, -, rfl⟩ | ⟨c, rest, hp, ho, hc⟩ :=
    portStep_next h
  · exact .inr (.inr ⟨⟨rfl, rfl, rfl⟩, .inl hr⟩)
  · exact .inl ⟨by simp, by simp, by simp⟩
  · exact .inl ⟨rfl, rfl, rfl⟩
  · exact .inl ⟨rfl, rfl, rfl⟩
  · exact .inl ⟨rfl, rfl, rfl⟩
  · refine (Performed.latch hc).imp_right (Or.imp_right ?_)
    rintro ⟨hd, ht⟩
    exact ⟨ht, .inr ⟨hp, c, rest, ho, hd⟩⟩

/-- Settles O31: of the three things a step can do to the latch, recording a first error needs `ERR = 0`. -/
theorem onlyClearAndResetClearTheLatch : Obligations.OnlyClearAndResetClearTheLatch := by
  unfold Obligations.OnlyClearAndResetClearTheLatch
  intro s t herr h
  obtain ⟨hkept, hcode, hop⟩ | ⟨hclear, -⟩ | ⟨-, hreset⟩ := step_latch h
  · exact .inl ⟨hkept.trans herr, hcode, hop⟩
  · simp [herr] at hclear
  · exact .inr hreset

end Sys2Proof.Machine
end

section
/-! PROOFS. The invariant `Legal` (spec/10_state.md R49): reset has it, every step keeps it, and from it no step stops. It
is the conjunction of a condition on the sponge registers and one on the latch, and each is kept on its own. -/

namespace Sys2Proof.Machine

/-! ### The two halves of `Legal` -/

/-- The sponge registers of a legal state (R49). -/
abbrev RegsLegal (s : State) : Prop :=
  (s.phase = .idle → s.rate = 0#8 ∧ s.delim = 0#8 ∧ s.offset = 0#8 ∧ s.outlim = 0#8 ∧ s.sqcnt = 0#8) ∧
  (s.phase = .absorb → InBlock s ∧ s.sqcnt = 0#8) ∧
  (s.phase = .squeeze →
    InOutput s ∧ (s.outlim = 0#8 → s.sqcnt = 0#8) ∧ (s.outlim ≠ 0#8 → s.sqcnt.toNat ≤ s.outlim.toNat))

/-- The latch of a legal state (R49). -/
abbrev LatchLegal (s : State) : Prop := s.err = false → s.errcode = 0x00#8 ∧ s.errop = 0x00#8

theorem legal_iff (s : State) : Legal s ↔ RegsLegal s ∧ LatchLegal s := by
  have hblock : (1 ≤ s.rate.toNat ∧ s.rate.toNat ≤ 200 ∧ s.offset.toNat ≤ s.rate.toNat - 1) ↔ InBlock s := by
    unfold InBlock; omega
  unfold Legal RegsLegal LatchLegal InOutput
  rw [← hblock]
  simp only [and_assoc]

/-- The sponge registers: all that `RegsLegal` looks at. -/
def State.regs (s : State) : Byte × Byte × Byte × Phase × Byte × Byte :=
  (s.rate, s.delim, s.offset, s.phase, s.outlim, s.sqcnt)

theorem RegsLegal.congr {s t : State} (hs : RegsLegal s) (h : t.regs = s.regs) : RegsLegal t := by
  simp only [State.regs, Prod.mk.injEq] at h
  obtain ⟨hrate, hdelim, hoff, hphase, hlim, hcnt⟩ := h
  simpa only [RegsLegal, InBlock, InOutput, hrate, hdelim, hoff, hphase, hlim, hcnt] using hs

theorem RegsLegal.respond {s : State} (hs : RegsLegal s) (d : Word64) : RegsLegal (s.respond d) := hs.congr rfl

theorem regsLegal_absorb {s : State} (hp : s.phase = .absorb) : RegsLegal s ↔ InBlock s ∧ s.sqcnt = 0#8 := by
  simp [RegsLegal, hp]

theorem regsLegal_squeeze {s : State} (hp : s.phase = .squeeze) :
    RegsLegal s ↔
      InOutput s ∧ (s.outlim = 0#8 → s.sqcnt = 0#8) ∧ (s.outlim ≠ 0#8 → s.sqcnt.toNat ≤ s.outlim.toNat) := by
  simp [RegsLegal, hp]

theorem regsLegal_cleared (s : State) : RegsLegal s.cleared := by simp [RegsLegal]

/-! ### The byte loops keep `OFFSET` in its range -/

theorem absorbSteps_singleton (b : Byte) (s : State) : absorbSteps [b] s = absorbStep b s := by
  simp only [absorbSteps]
  cases absorbStep b s <;> rfl

/-- Inside a block, absorbing answers, stays inside a block, and leaves the other registers alone. -/
theorem absorbSteps_inBlock (bs : List Byte) {s : State} (he : s.engine = none) (hb : InBlock s) :
    ∃ u, absorbSteps bs s = .ok u ∧ InBlock u ∧ u.phase = s.phase ∧ u.sqcnt = s.sqcnt := by
  obtain ⟨h1, h200, hlt⟩ := hb
  have hoff := absorbInto_offset_lt h1 bs s.lanes s.offset.toNat hlt
  refine ⟨_, absorbSteps_ok h200 bs s he rfl hlt, ⟨h1, h200, ?_⟩, rfl, rfl⟩
  rw [BitVec.toNat_ofNat, Nat.mod_eq_of_lt (by omega)]
  exact hoff

/-- The same for squeezing, where `OFFSET` may equal `RATE`. -/
theorem squeezeSteps_inOutput (n : Nat) {s : State} (he : s.engine = none) (ho : InOutput s) :
    ∃ bs u, squeezeSteps n s = .ok (bs, u) ∧ InOutput u ∧
      u.phase = s.phase ∧ u.outlim = s.outlim ∧ u.sqcnt = s.sqcnt := by
  obtain ⟨h1, h200, hle⟩ := ho
  have hoff := squeezeFrom_offset_le h1 n s.lanes s.offset.toNat hle
  refine ⟨_, _, squeezeSteps_ok h1 h200 n s he rfl hle, ⟨h1, h200, ?_⟩, rfl, rfl, rfl⟩
  rw [BitVec.toNat_ofNat, Nat.mod_eq_of_lt (by omega)]
  exact hoff

theorem pad_inBlock {s : State} (hb : InBlock s) : ∃ u, pad s = .ok u := by
  obtain ⟨h1, h200, hlt⟩ := hb
  exact ⟨_, pad_ok (by omega) h1 h200⟩

/-! ### The commands that set the registers -/

/-- Every rate of the variant ROM is legal (R201). -/
theorem variantRom_rate {id : Byte} {v : VariantRow} (h : variantRom id = some v) :
    1 ≤ v.rate.toNat ∧ v.rate.toNat ≤ 200 := by
  have hall : ∀ v ∈ variantTable, 1 ≤ v.rate.toNat ∧ v.rate.toNat ≤ 200 := by decide
  exact hall v (List.mem_of_getElem? h)

theorem regsLegal_construct (s : State) (delim outlim : Byte) {rate : Byte} (h : 1 ≤ rate.toNat ∧ rate.toNat ≤ 200) :
    RegsLegal (s.construct rate delim outlim) :=
  (regsLegal_absorb rfl).2 ⟨⟨h.1, h.2, h.1⟩, rfl⟩

/-- A context word SET_CTX accepts holds legal registers (R264). -/
theorem regsLegal_withContext (s : State) {c : Word64} {ph : Phase} (h : ctxCheck c = some ph) :
    RegsLegal (s.withContext c ph) := by
  obtain ⟨hnew, hrange⟩ := (ctxCheck_eq_some c ph).1 h
  obtain ⟨-, -, h1, h200, habs, hsqz, hcnt, hlim⟩ := (ctxInRange_iff c ph).1 hrange
  cases ph with
  | idle => exact absurd rfl ((ctxNewPhase_eq_some c _).1 hnew).1
  | absorb =>
    have hle := habs rfl
    have hlt : (ctxOffset c).toNat < (ctxRate c).toNat := by omega
    exact (regsLegal_absorb rfl).2 ⟨⟨h1, h200, hlt⟩, hcnt (.inr rfl)⟩
  | squeeze =>
    exact (regsLegal_squeeze rfl).2 ⟨⟨h1, h200, hsqz rfl⟩, fun hz => hcnt (.inl hz), fun _ => hlim⟩

/-! ### The end of FINALIZE, field by field -/

@[simp] theorem State.enterSqueeze_phase (s : State) : s.enterSqueeze.phase = .squeeze := rfl
@[simp] theorem State.enterSqueeze_offset (s : State) : s.enterSqueeze.offset = 0#8 := rfl
@[simp] theorem State.enterSqueeze_sqcnt (s : State) : s.enterSqueeze.sqcnt = 0#8 := rfl
@[simp] theorem State.enterSqueeze_rate (s : State) : s.enterSqueeze.rate = s.rate := by
  rw [State.enterSqueeze, State.keccakF_eq]
@[simp] theorem State.enterSqueeze_delim (s : State) : s.enterSqueeze.delim = s.delim := by
  rw [State.enterSqueeze, State.keccakF_eq]
@[simp] theorem State.enterSqueeze_outlim (s : State) : s.enterSqueeze.outlim = s.outlim := by
  rw [State.enterSqueeze, State.keccakF_eq]

/-! ### Every command and every step keeps the registers legal -/

/-- Past the lock a command is performed; behind it, it answers LOCKED (R303). -/
theorem State.unlocked_next {s : State} {r : Result} {t : State} (h : s.unlocked r = .next t) :
    t = s.answer 0#64 codeLocked ∨ r = .next t := by
  cases he : s.err
  · exact .inr (State.unlocked_of_no_err he r ▸ h)
  · rw [State.unlocked_of_err he] at h
    exact .inl (Host.Outcome.next.inj h).symm

theorem raising_keeps_regs {s t : State} {e : ErrorCode} {o : Op} (h : raising s e o = .next t) (hs : RegsLegal s) :
    RegsLegal t := by
  cases h
  exact hs.congr (by simp [State.regs])

theorem initVariant_keeps_regs {id : Byte} {s t : State} (h : exec (.initVariant id) s = .next t) (hs : RegsLegal s) :
    RegsLegal t := by
  obtain rfl | h := State.unlocked_next h
  · exact hs.congr rfl
  · split at h
    · exact raising_keeps_regs h hs
    · rename_i v hv
      cases h
      exact (regsLegal_construct s v.delim v.outlim (variantRom_rate hv)).respond _

theorem initCustom_keeps_regs {delim rate : Byte} {s t : State} (h : exec (.initCustom delim rate) s = .next t)
    (hs : RegsLegal s) : RegsLegal t := by
  obtain rfl | h := State.unlocked_next h
  · exact hs.congr rfl
  · split at h
    · exact raising_keeps_regs h hs
    · rename_i hr
      cases h
      have hrate : 1 ≤ rate.toNat ∧ rate.toNat ≤ 200 := by omega
      exact (regsLegal_construct s delim 0#8 hrate).respond _

theorem absorbSteps_keeps_regs {bs : List Byte} {s u : State} (he : s.engine = none) (hs : RegsLegal s)
    (hp : s.phase = .absorb) (hu : absorbSteps bs s = .ok u) : RegsLegal u := by
  obtain ⟨hb, hcnt⟩ := (regsLegal_absorb hp).1 hs
  obtain ⟨u', hu', hblock, hphase, hsq⟩ := absorbSteps_inBlock bs he hb
  cases hu'.symm.trans hu
  exact (regsLegal_absorb (hphase.trans hp)).2 ⟨hblock, hsq.trans hcnt⟩

/-- FINALIZE keeps the rate and starts an empty output (R221). -/
theorem enterSqueeze_regsLegal {s u : State} (hb : InBlock s) (hu : pad s = .ok u) : RegsLegal u.enterSqueeze := by
  obtain ⟨h1, h200, -⟩ := hb
  have hrate : u.rate = s.rate := by rw [pad_frame hu]
  rw [regsLegal_squeeze (State.enterSqueeze_phase u)]
  simp [InOutput, hrate, h1, h200]

/-- The limit check of SQUEEZE_N is what keeps `SQCNT` at most `OUTLIM` (R231). -/
theorem squeezeSteps_keeps_regs {n : Byte} {bs : List Byte} {s u : State} (he : s.engine = none) (hs : RegsLegal s)
    (hp : s.phase = .squeeze) (hn : s.outlim = 0#8 ∨ s.sqcnt.toNat + n.toNat ≤ s.outlim.toNat)
    (hu : squeezeSteps n.toNat s = .ok (bs, u)) : RegsLegal (u.countOutput n) := by
  obtain ⟨ho, hzero, hle⟩ := (regsLegal_squeeze hp).1 hs
  obtain ⟨bs', u', hu', hout, hphase, hlim, hcnt⟩ := squeezeSteps_inOutput n.toNat he ho
  cases hu'.symm.trans hu
  refine (regsLegal_squeeze (by simp [hphase, hp])).2 ⟨by simpa [InOutput] using hout, ?_⟩
  rw [State.countOutput_outlim, State.countOutput_sqcnt, hlim, hcnt]
  refine ⟨fun hz => by rw [if_pos hz, hzero hz], fun hz => ?_⟩
  have hsum := hn.resolve_left hz
  have hlt := s.outlim.isLt
  rw [if_neg hz, BitVec.toNat_add, Nat.mod_eq_of_lt (by omega)]
  exact hsum

/-- Every command that answers keeps the registers legal: by its effect, except that the INIT commands need the rate
they load. -/
theorem exec_keeps_regs {i : Instr} {s t : State} (he : s.engine = none) (hs : RegsLegal s) (h : exec i s = .next t) :
    RegsLegal t := by
  obtain ⟨d, c, e1, e2, e3, -, rfl⟩ | hd := exec_effect h
  · exact hs.congr rfl
  cases i with
  | nop | readStatus | readCtx =>
    obtain ⟨d, rfl⟩ := hd
    exact hs.congr rfl
  | clear =>
    cases hd
    exact (regsLegal_cleared s).respond _
  | setCtx c =>
    obtain ⟨-, ph, hc, rfl⟩ := hd
    exact (regsLegal_withContext s hc).respond _
  | initVariant id => exact initVariant_keeps_regs h hs
  | initCustom delim rate => exact initCustom_keeps_regs h hs
  | absorbByte b =>
    obtain ⟨hp, u, hu, rfl⟩ := hd
    rw [← absorbSteps_singleton] at hu
    exact (absorbSteps_keeps_regs he hs hp hu).respond _
  | absorbN n data =>
    obtain ⟨hp, u, hu, rfl⟩ := hd
    exact (absorbSteps_keeps_regs he hs hp hu).respond _
  | finalize =>
    obtain ⟨hp, u, hu, rfl⟩ := hd
    exact (enterSqueeze_regsLegal ((regsLegal_absorb hp).1 hs).1 hu).respond _
  | squeezeN n =>
    obtain ⟨hp, -, hn, bs, u, hu, rfl⟩ := hd
    exact (squeezeSteps_keeps_regs he hs hp hn hu).respond _
  | permute =>
    obtain ⟨-, rfl⟩ := hd
    exact hs.congr (by simp [State.regs])
  | laneWrite i v =>
    obtain ⟨-, -, rfl⟩ := hd
    exact hs.congr rfl
  | laneRead i =>
    obtain ⟨-, rfl⟩ := hd
    exact hs.congr rfl

theorem step_keeps_regs {s t : State} (hs : RegsLegal s) (h : step s = .next t) : RegsLegal t := by
  obtain ⟨-, rfl⟩ | ⟨-, -, rfl⟩ | ⟨r, -, -, -, -, rfl⟩ | ⟨r, -, -, -, -, rfl⟩ | ⟨-, -, rfl⟩ | ⟨c, rest, hp, -, hc⟩ :=
    portStep_next h
  · exact regsLegal_cleared s
  · exact hs.congr (by simp [State.regs])
  · exact hs.congr rfl
  · exact hs
  · exact hs
  · have hs' : RegsLegal (s.accept rest) := hs.congr rfl
    obtain ⟨-, he, -⟩ := hp
    obtain ⟨e, -, rfl⟩ | ⟨i, -, hi⟩ := hc
    · exact hs'.congr (by simp [State.regs])
    · exact exec_keeps_regs (s := s.accept rest) he hs' hi

/-- A latch that stays, is set, or is reset stays legal. -/
theorem step_keeps_latch {s t : State} (hs : LatchLegal s) (h : step s = .next t) : LatchLegal t := by
  obtain ⟨herr, hcode, hop⟩ | ⟨-, herr⟩ | ⟨⟨-, hcode, hop⟩, -⟩ := step_latch h
  · rw [LatchLegal, herr, hcode, hop]
    exact hs
  · simp [LatchLegal, herr]
  · exact fun _ => ⟨hcode, hop⟩

/-! ### No command stops -/

theorem State.unlocked_answers (s : State) {r : Result} (h : ∃ t, r = .next t) : ∃ t, s.unlocked r = .next t := by
  obtain ⟨t, rfl⟩ := h
  unfold State.unlocked
  split <;> exact ⟨_, rfl⟩

theorem raising_answers (s : State) (e : ErrorCode) (o : Op) : ∃ t, raising s e o = .next t := ⟨_, rfl⟩

theorem finish_answers {r : Except Fault State} (done : State → State) (h : ∃ u, r = .ok u) :
    ∃ t, finish r done = .next t := by
  obtain ⟨u, rfl⟩ := h
  exact ⟨done u, rfl⟩

/-- From legal registers every command answers: the byte loops stay in the state's 200 bytes (R102). -/
theorem exec_answers (i : Instr) {s : State} (he : s.engine = none) (hs : RegsLegal s) : ∃ t, exec i s = .next t := by
  cases i with
  | nop | clear | readStatus => exact ⟨_, rfl⟩
  | readCtx => exact State.unlocked_answers s ⟨_, rfl⟩
  | setCtx ctx =>
    refine State.unlocked_answers s ?_
    split
    · exact raising_answers ..
    · split <;> exact ⟨_, rfl⟩
  | initVariant id =>
    refine State.unlocked_answers s ?_
    split <;> exact ⟨_, rfl⟩
  | initCustom delim rate =>
    refine State.unlocked_answers s ?_
    split <;> exact ⟨_, rfl⟩
  | absorbByte b =>
    refine State.unlocked_answers s ?_
    split
    · exact raising_answers ..
    · exact raising_answers ..
    · rename_i hp
      obtain ⟨u, hu, -⟩ := absorbSteps_inBlock [b] he ((regsLegal_absorb hp).1 hs).1
      exact finish_answers _ ⟨u, absorbSteps_singleton b s ▸ hu⟩
  | absorbN n data =>
    refine State.unlocked_answers s ?_
    split
    · exact raising_answers ..
    · exact raising_answers ..
    · rename_i hp
      split
      · exact raising_answers ..
      · obtain ⟨u, hu, -⟩ := absorbSteps_inBlock (dataBytes n.toNat data) he ((regsLegal_absorb hp).1 hs).1
        exact finish_answers _ ⟨u, hu⟩
  | finalize =>
    refine State.unlocked_answers s ?_
    split
    · exact raising_answers ..
    · exact raising_answers ..
    · rename_i hp
      exact finish_answers _ (pad_inBlock ((regsLegal_absorb hp).1 hs).1)
  | squeezeN n =>
    refine State.unlocked_answers s ?_
    split
    · exact raising_answers ..
    · exact raising_answers ..
    · rename_i hp
      obtain ⟨bs, u, hu, -⟩ := squeezeSteps_inOutput n.toNat he ((regsLegal_squeeze hp).1 hs).1
      split
      · exact raising_answers ..
      · split
        · exact raising_answers ..
        · rw [hu]
          exact ⟨_, rfl⟩
  | permute =>
    refine State.unlocked_answers s ?_
    split <;> exact ⟨_, rfl⟩
  | laneWrite i v =>
    refine State.unlocked_answers s ?_
    split
    · exact raising_answers ..
    · split <;> exact ⟨_, rfl⟩
  | laneRead i =>
    refine State.unlocked_answers s ?_
    split <;> exact ⟨_, rfl⟩

theorem runCommand_answers (c : Command) {s : State} (he : s.engine = none) (hs : RegsLegal s) :
    ∃ t, runCommand c s = .next t := by
  unfold runCommand
  split
  · exact ⟨_, rfl⟩
  · exact exec_answers _ he hs

/-! ### The obligations -/

/-- Settles O32: reset is a cleared state. -/
theorem resetIsLegal : Obligations.ResetIsLegal := by
  unfold Obligations.ResetIsLegal
  rw [legal_iff]
  exact ⟨regsLegal_cleared State.reset, fun _ => ⟨rfl, rfl⟩⟩

/-- Settles O33: a step keeps the sponge registers legal and the latch legal, each by what a step can do. -/
theorem stepKeepsLegal : Obligations.StepKeepsLegal := by
  unfold Obligations.StepKeepsLegal
  intro s t hs h
  obtain ⟨hregs, hlatch⟩ := (legal_iff s).1 hs
  exact (legal_iff t).2 ⟨step_keeps_regs hregs h, step_keeps_latch hlatch h⟩

/-- Settles O34: every event but an accepted command answers at once, and a command answers from legal registers. -/
theorem legalStepsNeverStop : Obligations.LegalStepsNeverStop := by
  unfold Obligations.LegalStepsNeverStop
  intro s hs
  obtain ⟨hregs, -⟩ := (legal_iff s).1 hs
  unfold step portStep
  split
  · exact ⟨_, rfl⟩
  · split
    · exact ⟨_, rfl⟩
    · rename_i he
      split
      · split <;> exact ⟨_, rfl⟩
      · split
        · exact ⟨_, rfl⟩
        · rename_i c rest _
          exact runCommand_answers c he (hregs.congr rfl)

end Sys2Proof.Machine
end

section
/-! PROOFS. The status word and the context word (spec/10_state.md R41, R42), and the commands that read and restore them
(spec/42_control.md R262, R263, R264). -/

namespace Sys2Proof.Machine

/-! ### The fields of a word made of shifted registers -/

section WordField

variable {w : Nat} (x : BitVec w) {k j n : Nat}

theorem extractLsb'_field_self (h : k + w ≤ 64) : (x.setWidth 64 <<< k).extractLsb' k w = x := by
  apply BitVec.eq_of_getLsbD_eq
  intro i hi
  have hlt : k + i < 64 := by omega
  simp [hi, hlt]

theorem extractLsb'_field_of_below (h : k + w ≤ j) : (x.setWidth 64 <<< k).extractLsb' j n = 0#n := by
  apply BitVec.eq_of_getLsbD_eq
  intro i hi
  have hge : w ≤ j + i - k := by omega
  simp [BitVec.getLsbD_of_ge _ _ hge]

theorem extractLsb'_field_of_above (h : j + n ≤ k) : (x.setWidth 64 <<< k).extractLsb' j n = 0#n := by
  apply BitVec.eq_of_getLsbD_eq
  intro i hi
  have hlt : j + i < k := by omega
  simp [hlt]

end WordField

/-- The status word, field by field (R41). -/
theorem statusWord_fields (s : State) :
    s.statusWord.extractLsb' 0 2 = s.phase.code ∧ s.statusWord.extractLsb' 2 1 = BitVec.ofBool s.err ∧
    s.statusWord.extractLsb' 3 5 = 0#5 ∧ s.statusWord.extractLsb' 8 8 = s.errcode ∧
    s.statusWord.extractLsb' 16 8 = s.errop ∧ s.statusWord.extractLsb' 24 40 = 0#40 := by
  have hphase : s.phase.code.setWidth 64 = s.phase.code.setWidth 64 <<< 0 := by simp
  simp only [State.statusWord, BitVec.zeroExtend_eq_setWidth, BitVec.extractLsb'_or]
  rw [hphase]
  simp (disch := decide) only [extractLsb'_field_self, extractLsb'_field_of_below, extractLsb'_field_of_above,
    BitVec.or_zero, BitVec.zero_or, and_self]

/-- The context word, field by field (R42). -/
theorem ctxWord_fields (s : State) :
    ctxRate s.ctxWord = s.rate ∧ ctxDelim s.ctxWord = s.delim ∧ ctxOffset s.ctxWord = s.offset ∧
    ctxPhase s.ctxWord = s.phase.code ∧ ctxReservedLow s.ctxWord = 0#6 ∧ ctxOutlim s.ctxWord = s.outlim ∧
    ctxSqcnt s.ctxWord = s.sqcnt ∧ ctxReservedHigh s.ctxWord = 0#8 ∧ s.ctxWord.extractLsb' 56 8 = s.cap := by
  have hrate : s.rate.setWidth 64 = s.rate.setWidth 64 <<< 0 := by simp
  simp only [State.ctxWord, ctxRate, ctxDelim, ctxOffset, ctxPhase, ctxReservedLow, ctxOutlim, ctxSqcnt,
    ctxReservedHigh, BitVec.zeroExtend_eq_setWidth, BitVec.extractLsb'_or]
  rw [hrate]
  simp (disch := decide) only [extractLsb'_field_self, extractLsb'_field_of_below, extractLsb'_field_of_above,
    BitVec.or_zero, BitVec.zero_or, and_self]

/-! ### SET_CTX -/

theorem raising_of_no_err {s : State} (h : s.err = false) (e : ErrorCode) (o : Op) :
    raising s e o = .next (afterError s e.code o.code) :=
  congrArg Host.Outcome.next (State.raise_of_no_err h e o.code)

/-- SET_CTX outside IDLE is NOT_IDLE (R264). -/
theorem exec_setCtx_not_idle {s : State} (he : s.err = false) (hp : s.phase ≠ .idle) (ctx : Word64) :
    exec (.setCtx ctx) s = .next (afterError s 0x09#8 0x04#8) := by
  simp only [exec, execSetCtx, State.unlocked_of_no_err he, if_pos hp]
  exact raising_of_no_err he .notIdle .setCtx

theorem exec_setCtx_accepted {s : State} {ctx : Word64} {ph : Phase} (he : s.err = false) (hp : s.phase = .idle)
    (hc : ctxCheck ctx = some ph) : exec (.setCtx ctx) s = .next (afterResponse (s.withContext ctx ph) 0#64) := by
  have hp' : ¬ s.phase ≠ .idle := not_not.2 hp
  simp only [exec, execSetCtx, State.unlocked_of_no_err he, if_neg hp', hc]
  rfl

theorem exec_setCtx_refused {s : State} {ctx : Word64} (he : s.err = false) (hp : s.phase = .idle)
    (hc : ctxCheck ctx = none) : exec (.setCtx ctx) s = .next (afterError s 0x0A#8 0x04#8) := by
  have hp' : ¬ s.phase ≠ .idle := not_not.2 hp
  simp only [exec, execSetCtx, State.unlocked_of_no_err he, if_neg hp', hc]
  exact raising_of_no_err he .badContext .setCtx

/-- The checks of SET_CTX on the fields of a context word, the phase field among them (R264). -/
abbrev ContextAccepted (c : Word64) : Prop :=
  ctxReservedLow c = 0#6 ∧ ctxReservedHigh c = 0#8 ∧ 1 ≤ (ctxRate c).toNat ∧ (ctxRate c).toNat ≤ 200 ∧
  (ctxPhase c = 1#2 ∨ ctxPhase c = 2#2) ∧ (ctxPhase c = 1#2 → (ctxOffset c).toNat ≤ (ctxRate c).toNat - 1) ∧
  (ctxPhase c = 2#2 → (ctxOffset c).toNat ≤ (ctxRate c).toNat) ∧
  ((ctxOutlim c = 0#8 ∨ ctxPhase c = 1#2) → ctxSqcnt c = 0#8) ∧ (ctxSqcnt c).toNat ≤ (ctxOutlim c).toNat

/-- The phase an accepted word restores. -/
def restoredPhase (c : Word64) : Phase := if ctxPhase c = 1#2 then .absorb else .squeeze

theorem ctxCheck_of_accepted {c : Word64} (h : ContextAccepted c) : ctxCheck c = some (restoredPhase c) := by
  obtain ⟨hlow, hhigh, h1, h200, hph, habs, hsqz, hcnt, hlim⟩ := h
  rw [ctxCheck_eq_some, ctxNewPhase_eq_some, ctxInRange_iff]
  obtain hph | hph := hph
  · simp [restoredPhase, Phase.code, hph, hlow, hhigh, h1, h200, habs, hcnt]
  · simpa [restoredPhase, Phase.code, hph, hlow, hhigh, h1, h200, hsqz, hlim] using hcnt

theorem contextAccepted_of_ctxCheck {c : Word64} {ph : Phase} (h : ctxCheck c = some ph) : ContextAccepted c := by
  rw [ctxCheck_eq_some, ctxNewPhase_eq_some, ctxInRange_iff] at h
  obtain ⟨⟨hidle, hph⟩, hlow, hhigh, h1, h200, habs, hsqz, hcnt, hlim⟩ := h
  rw [ContextAccepted, hph]
  cases ph with
  | idle => exact absurd rfl hidle
  | absorb => simp [Phase.code, hlow, hhigh, h1, h200, habs, hcnt]
  | squeeze => simpa [Phase.code, hlow, hhigh, h1, h200, hsqz, hlim] using fun hz => hcnt (.inl hz)

theorem ctxCheck_of_not_accepted {c : Word64} (h : ¬ ContextAccepted c) : ctxCheck c = none := by
  cases hc : ctxCheck c with
  | none => rfl
  | some ph => exact absurd (contextAccepted_of_ctxCheck hc) h

/-- The context word of a legal state in ABSORB or SQUEEZE passes the checks of SET_CTX (R49, R264). -/
theorem ctxCheck_ctxWord {s : State} (hs : Legal s) (hp : s.phase ≠ .idle) : ctxCheck s.ctxWord = some s.phase := by
  obtain ⟨hrate, -, hoff, hph, hlow, hlim, hcnt, hhigh, -⟩ := ctxWord_fields s
  obtain ⟨-, habs, hsqz, -⟩ := hs
  rw [ctxCheck_eq_some, ctxNewPhase_eq_some, ctxInRange_iff, hrate, hoff, hph, hlow, hlim, hcnt, hhigh]
  refine ⟨⟨hp, rfl⟩, rfl, rfl, ?_⟩
  cases hphase : s.phase with
  | idle => exact absurd hphase hp
  | absorb =>
    obtain ⟨h1, h200, hle, hz⟩ := habs hphase
    simp [h1, h200, hle, hz]
  | squeeze =>
    obtain ⟨h1, h200, hle, hz, hcl⟩ := hsqz hphase
    by_cases h0 : s.outlim = 0#8
    · simp [h1, h200, hle, hz h0]
    · simp [h1, h200, hle, h0, hcl h0]

/-! ### The obligations -/

/-- Settles O14: the fields of the status word. -/
theorem readStatusReturnsStatus : Obligations.ReadStatusReturnsStatus := by
  unfold Obligations.ReadStatusReturnsStatus
  intro s
  obtain ⟨hphase, hrest⟩ := statusWord_fields s
  refine ⟨s.statusWord, rfl, hphase.trans ?_, hrest⟩
  cases s.phase <;> rfl

/-- Settles O15: the fields of the context word, the lock being open. -/
theorem readCtxReturnsContext : Obligations.ReadCtxReturnsContext := by
  unfold Obligations.ReadCtxReturnsContext
  intro s he
  obtain ⟨hrate, hdelim, hoff, hphase, hrest⟩ := ctxWord_fields s
  refine ⟨s.ctxWord, State.unlocked_of_no_err he _, hrate, hdelim, hoff, hphase.trans ?_, hrest⟩
  cases s.phase <;> rfl

/-- Settles O16: the three ways SET_CTX can go, by the phase and by `ContextAccepted`. -/
theorem setCtxRestoresOrRefuses : Obligations.SetCtxRestoresOrRefuses := by
  unfold Obligations.SetCtxRestoresOrRefuses
  intro ctx s he
  refine ⟨fun hp => exec_setCtx_not_idle he hp ctx, fun hp ha => ?_, fun hp ha => ?_⟩
  · exact exec_setCtx_accepted he hp (ctxCheck_of_accepted ha)
  · exact exec_setCtx_refused he hp (ctxCheck_of_not_accepted ha)

/-- Settles O17: the saved word passes the checks, and its fields are the registers saved. -/
theorem savedContextIsAccepted : Obligations.SavedContextIsAccepted := by
  unfold Obligations.SavedContextIsAccepted
  intro s t hs hp ht he
  obtain ⟨hrate, hdelim, hoff, -, -, hlim, hcnt, -, -⟩ := ctxWord_fields s
  rw [exec_setCtx_accepted he ht (ctxCheck_ctxWord hs hp), State.withContext, hrate, hdelim, hoff, hlim, hcnt]

end Sys2Proof.Machine
end

section
/-! PROOFS. What each command may change (spec/10_state.md R31, R32, R34, R36, R37, R50), from its effect. -/

namespace Sys2Proof.Machine

/-! ### The byte loops leave the phase and the parameters alone -/

/-- The phase, and the registers a construction fixes. -/
abbrev ConfigKept (s t : State) : Prop :=
  t.phase = s.phase ∧ t.rate = s.rate ∧ t.delim = s.delim ∧ t.outlim = s.outlim

theorem absorbSteps_config {bs : List Byte} {s t : State} (h : absorbSteps bs s = .ok t) : ConfigKept s t := by
  rw [absorbSteps_frame h]
  exact ⟨rfl, rfl, rfl, rfl⟩

theorem pad_config {s t : State} (h : pad s = .ok t) : ConfigKept s t := by
  rw [pad_frame h]
  exact ⟨rfl, rfl, rfl, rfl⟩

theorem squeezeSteps_config {n : Nat} {s t : State} {bs : List Byte} (h : squeezeSteps n s = .ok (bs, t)) :
    ConfigKept s t := by
  have ht : t = _ := squeezeSteps_frame h
  rw [ht]
  exact ⟨rfl, rfl, rfl, rfl⟩

/-! ### The writers of the lane file -/

/-- The commands that never write a lane (R31). -/
theorem exec_keeps_lanes {i : Instr} {s t : State} (h : exec i s = .next t)
    (hi : i.op ∈ [.nop, .readStatus, .readCtx, .setCtx, .laneRead]) : t.lanes = s.lanes := by
  obtain ⟨d, c, e1, e2, e3, -, rfl⟩ | hd := exec_effect h
  · rfl
  cases i with
  | nop | readStatus | readCtx =>
    obtain ⟨d, rfl⟩ := hd
    rfl
  | setCtx c =>
    obtain ⟨-, ph, -, rfl⟩ := hd
    rfl
  | laneRead i =>
    obtain ⟨-, rfl⟩ := hd
    rfl
  | clear | initVariant | initCustom | absorbByte | absorbN | finalize | squeezeN | permute | laneWrite =>
    simp [Instr.op] at hi

theorem exec_laneWrite_frame {k : Byte} {v : Word64} {s t : State} (h : exec (.laneWrite k v) s = .next t) {j : Nat}
    (hj : j ≠ k.toNat) : Lanes.get t.lanes j = Lanes.get s.lanes j := by
  obtain ⟨d, c, e1, e2, e3, -, rfl⟩ | ⟨-, -, rfl⟩ := exec_effect h
  · rfl
  · exact Lanes.get_put_ne _ _ _ _ (Ne.symm hj)

/-- From IDLE to IDLE a lane is written by CLEAR, LANE_WRITE and PERMUTE alone (R50). -/
theorem exec_idle_writers {i : Instr} {s t : State} (h : exec i s = .next t) (hs : s.phase = .idle)
    (ht : t.phase = .idle) (hne : t.lanes ≠ s.lanes) : i.op ∈ [.clear, .laneWrite, .permute] := by
  by_cases hi : i.op ∈ [.nop, .readStatus, .readCtx, .setCtx, .laneRead]
  · exact absurd (exec_keeps_lanes h hi) hne
  obtain ⟨d, c, e1, e2, e3, -, rfl⟩ | hd := exec_effect h
  · exact absurd rfl hne
  cases i with
  | clear | laneWrite | permute => simp [Instr.op]
  | nop | readStatus | readCtx | setCtx | laneRead => simp [Instr.op] at hi
  | initVariant | initCustom =>
    obtain ⟨a, b, c, rfl⟩ := hd
    cases ht
  | absorbByte | absorbN | finalize | squeezeN => simp [hs] at hd

/-! ### The obligations -/

/-- Settles O35: by the effect of each command. -/
theorem phaseTransitions : Obligations.PhaseTransitions := by
  unfold Obligations.PhaseTransitions
  intro i s t h
  obtain ⟨d, c, e1, e2, e3, -, rfl⟩ | hd := exec_effect h
  · exact .inl rfl
  cases i with
  | nop | readStatus | readCtx =>
    obtain ⟨d, rfl⟩ := hd
    exact .inl rfl
  | clear =>
    cases hd
    exact .inr (.inl ⟨rfl, rfl⟩)
  | initVariant id =>
    obtain ⟨a, b, c, rfl⟩ := hd
    exact .inr (.inr (.inl ⟨⟨id, rfl⟩, rfl⟩))
  | initCustom delim rate =>
    obtain ⟨a, b, c, rfl⟩ := hd
    exact .inr (.inr (.inr (.inl ⟨⟨delim, rate, rfl⟩, rfl⟩)))
  | finalize =>
    obtain ⟨hp, u, -, rfl⟩ := hd
    exact .inr (.inr (.inr (.inr (.inl ⟨rfl, hp, rfl⟩))))
  | setCtx c =>
    obtain ⟨hp, ph, hc, rfl⟩ := hd
    have hidle := ((ctxNewPhase_eq_some c ph).1 ((ctxCheck_eq_some c ph).1 hc).1).1
    refine .inr (.inr (.inr (.inr (.inr ⟨⟨c, rfl⟩, hp, ?_⟩))))
    cases ph with
    | idle => exact absurd rfl hidle
    | absorb => exact .inl rfl
    | squeeze => exact .inr rfl
  | absorbByte b =>
    obtain ⟨-, u, hu, rfl⟩ := hd
    rw [← absorbSteps_singleton] at hu
    obtain ⟨hphase, -⟩ := absorbSteps_config hu
    simp [hphase]
  | absorbN n data =>
    obtain ⟨-, u, hu, rfl⟩ := hd
    obtain ⟨hphase, -⟩ := absorbSteps_config hu
    simp [hphase]
  | squeezeN n =>
    obtain ⟨-, -, -, bs, u, hu, rfl⟩ := hd
    obtain ⟨hphase, -⟩ := squeezeSteps_config hu
    simp [hphase]
  | permute =>
    obtain ⟨-, rfl⟩ := hd
    simp
  | laneWrite i v =>
    obtain ⟨-, -, rfl⟩ := hd
    exact .inl rfl
  | laneRead i =>
    obtain ⟨-, rfl⟩ := hd
    exact .inl rfl

/-- Settles O36: the non-writers, the one lane of LANE_WRITE, and the writers from IDLE to IDLE. -/
theorem laneFileWriters : Obligations.LaneFileWriters := by
  unfold Obligations.LaneFileWriters
  intro i s t h
  refine ⟨exec_keeps_lanes h, ?_, exec_idle_writers h⟩
  rintro k v rfl j - hj
  exact exec_laneWrite_frame h hj

/-- Settles O37: by the effect of each command that does not construct. -/
theorem parametersAreFixedAtConstruction : Obligations.ParametersAreFixedAtConstruction := by
  unfold Obligations.ParametersAreFixedAtConstruction
  intro i s t h hop
  obtain ⟨d, c, e1, e2, e3, -, rfl⟩ | hd := exec_effect h
  · exact ⟨rfl, rfl, rfl⟩
  cases i with
  | clear | setCtx | initVariant | initCustom => simp [Instr.op] at hop
  | nop | readStatus | readCtx =>
    obtain ⟨d, rfl⟩ := hd
    exact ⟨rfl, rfl, rfl⟩
  | absorbByte b =>
    obtain ⟨-, u, hu, rfl⟩ := hd
    rw [← absorbSteps_singleton] at hu
    obtain ⟨-, hparams⟩ := absorbSteps_config hu
    simpa using hparams
  | absorbN n data =>
    obtain ⟨-, u, hu, rfl⟩ := hd
    obtain ⟨-, hparams⟩ := absorbSteps_config hu
    simpa using hparams
  | finalize =>
    obtain ⟨-, u, hu, rfl⟩ := hd
    obtain ⟨-, hparams⟩ := pad_config hu
    simpa using hparams
  | squeezeN n =>
    obtain ⟨-, -, -, bs, u, hu, rfl⟩ := hd
    obtain ⟨-, hparams⟩ := squeezeSteps_config hu
    simpa using hparams
  | permute =>
    obtain ⟨-, rfl⟩ := hd
    simp
  | laneWrite i v =>
    obtain ⟨-, -, rfl⟩ := hd
    exact ⟨rfl, rfl, rfl⟩
  | laneRead i =>
    obtain ⟨-, rfl⟩ := hd
    exact ⟨rfl, rfl, rfl⟩

end Sys2Proof.Machine
end

section
/-! PROOFS. The values after reset and CLEAR (spec/10_state.md R51), the reset edges of the cycle level
(spec/70_reset_and_hazards.md R340), and the engine run one round a step (spec/40_permutation.md R152). -/

namespace Sys2Proof.Machine

/-! ### Reset values -/

theorem atResetValues_cleared (s : State) : AtResetValues s.cleared :=
  ⟨fun i _ => Lanes.get_zero i, rfl, by simp [State.cap], rfl, rfl, rfl, rfl, rfl, rfl, rfl, rfl, rfl⟩

/-- Settles O11: CLEAR is what reset does, and a response. -/
theorem resetAndClearValues : Obligations.ResetAndClearValues := by
  unfold Obligations.ResetAndClearValues
  refine ⟨atResetValues_cleared State.reset, rfl, by decide, by decide, fun s => ?_⟩
  exact ⟨s.cleared.respond 0#64, rfl, atResetValues_cleared s, rfl, rfl⟩

/-! ### Edges with `rst = 1` -/

theorem tick_rst (t : Timing) (slack : Nat) {p : Pins} (c : ClockState) (h : p.rst = true) :
    tick t slack p c =
      .next { core := (c.core.drive p).cleared, left := 0, rstSeen := c.rstSeen + 1, outOfReset := false } := by
  simp [tick, h]

theorem tick_after_rst (t : Timing) (slack : Nat) {p : Pins} {c : ClockState} (h : p.rst = false)
    (hc : c.outOfReset = false) :
    tick t slack p c =
      .next { core := c.core.drive p, left := 0, rstSeen := 0, outOfReset := decide (t.resetCycles ≤ c.rstSeen) } := by
  simp [tick, h, hc]

/-- Edges one after another, in two parts. -/
theorem ticks_append (t : Timing) (ps qs : List (Nat × Pins)) {d : ClockState} :
    ∀ {c : ClockState}, ticks t ps c = .next d → ticks t (ps ++ qs) c = ticks t qs d := by
  induction ps with
  | nil => intro c h; cases h; rfl
  | cons q ps ih =>
    intro c h
    simp only [List.cons_append, ticks] at h ⊢
    split at h
    · exact ih h
    · cases h
    · cases h

/-- The core in the middle of its reset, after `n` edges of it. -/
def midReset (s : State) (n : Nat) : ClockState := { core := s.cleared, left := 0, rstSeen := n, outOfReset := false }

theorem ticks_midReset (t : Timing) (ps : List (Nat × Pins)) (h : ∀ q, q ∈ ps → q.2.rst = true) :
    ∀ (s : State) (n : Nat), ∃ s', ticks t ps (midReset s n) = .next (midReset s' (n + ps.length)) := by
  induction ps with
  | nil => exact fun s n => ⟨s, rfl⟩
  | cons q ps ih =>
    intro s n
    obtain ⟨hq, hps⟩ := List.forall_mem_cons.1 h
    obtain ⟨s', hs'⟩ := ih hps (s.cleared.drive q.2) (n + 1)
    refine ⟨s', ?_⟩
    rw [ticks, tick_rst t q.1 _ hq, List.length_cons, Nat.add_comm ps.length, ← Nat.add_assoc]
    exact hs'

/-- At least one reset edge, from any state at all, puts the core in the middle of its reset. -/
theorem ticks_rst (t : Timing) {ps : List (Nat × Pins)} (hne : 1 ≤ ps.length) (h : ∀ q, q ∈ ps → q.2.rst = true)
    (c : ClockState) : ∃ s n, ps.length ≤ n ∧ ticks t ps c = .next (midReset s n) := by
  cases ps with
  | nil => simp at hne
  | cons q ps =>
    obtain ⟨hq, hps⟩ := List.forall_mem_cons.1 h
    obtain ⟨s, hs⟩ := ticks_midReset t ps hps (c.core.drive q.2) (c.rstSeen + 1)
    refine ⟨s, c.rstSeen + 1 + ps.length, by simp only [List.length_cons]; omega, ?_⟩
    rw [ticks, tick_rst t q.1 c hq]
    exact hs

/-- Settles O55: one edge by `tick_rst`; and after enough of them, whatever `rstSeen` was before, the count suffices. -/
theorem resetEdgesResetTheCore : Obligations.ResetEdgesResetTheCore := by
  unfold Obligations.ResetEdgesResetTheCore
  constructor
  · intro t slack p c h
    exact ⟨_, tick_rst t slack c h, atResetValues_cleared _, rfl, rfl, rfl⟩
  · rintro t c p ps slack ⟨-, -, hcycles⟩ hlen hps hp
    obtain ⟨s, n, hn, hrun⟩ := ticks_rst t (hlen ▸ hcycles) hps c
    have hdone : t.resetCycles ≤ n := hlen ▸ hn
    refine ⟨{ core := s.cleared.drive p, left := 0, rstSeen := 0, outOfReset := true }, ?_, atResetValues_cleared s,
      rfl, rfl⟩
    rw [ticks_append t ps _ hrun, ticks, tick_after_rst t slack hp rfl]
    simp [midReset, hdone, ticks]

/-! ### The engine, one round a step -/

theorem step_engine_busy {s : State} {e : Engine} (hr : s.host.rst = false) (he : s.engine = some e) :
    step s = .next s.engineRound := by
  simp [step, portStep, hr, he]

/-- While the engine is busy, steps are its rounds. -/
theorem run_engine_busy (n : Nat) :
    ∀ (s : State) (e : Engine), s.host.rst = false → s.engine = some e → e.rnd.val + n ≤ 24 →
      Host.Core.run Sys2Proof.core n s = .next (State.engineRounds n s) := by
  induction n with
  | zero => intro s e hr he hn; rfl
  | succ n ih =>
    intro s e hr he hn
    rw [run_succ Sys2Proof.core n (step_engine_busy hr he), State.engineRounds]
    by_cases hlast : e.rnd.val + 1 < 24
    · exact ih s.engineRound ⟨⟨e.rnd.val + 1, hlast⟩, round e.work e.rnd.val⟩ (by simp [hr])
        (by simp [State.engineRound, he, hlast]) (by simp only; omega)
    · obtain rfl : n = 0 := by omega
      rfl

/-- Settles O52: 24 steps are the 24 rounds of `keccakF`, which `keccakF_eq` says. -/
theorem engineStepsComputeKeccak : Obligations.EngineStepsComputeKeccak := by
  unfold Obligations.EngineStepsComputeKeccak
  intro s hr
  rw [run_engine_busy 24 s.engineStart ⟨0, s.lanes⟩ hr rfl (Nat.le_refl 24), ← State.keccakF_eq]
  rfl

end Sys2Proof.Machine
end

section
/-! PROOFS. ABSORB_N and SQUEEZE_N byte by byte (spec/41_sponge.md R212, R231), and the runs of bytes that stay inside a
block: eight of them at a lane boundary are that lane (spec/20_memory.md R71). -/

namespace Sys2Proof.Machine

/-! ### ABSORB_N -/

/-- ABSORB_N outside ABSORB is an error whatever its count; in ABSORB a count above 8 is one (R212). -/
theorem exec_absorbN_refused {s : State} (he : s.err = false) (n : Byte) (data : Word64) :
    (s.phase = .idle → exec (.absorbN n data) s = .next (afterError s 0x04#8 0x21#8)) ∧
    (s.phase = .squeeze → exec (.absorbN n data) s = .next (afterError s 0x05#8 0x21#8)) ∧
    (s.phase = .absorb → 8 < n.toNat → exec (.absorbN n data) s = .next (afterError s 0x03#8 0x21#8)) := by
  simp only [exec, execAbsorbN, State.unlocked_of_no_err he, raising_of_no_err he]
  refine ⟨fun hp => ?idle, fun hp => ?squeeze, fun hp hn => ?count⟩
  case idle => rw [hp]; rfl
  case squeeze => rw [hp]; rfl
  case count => rw [hp]; simp only [if_pos hn]; rfl

/-- ABSORB_N of a legal count inside a block absorbs the first bytes of its data operand. -/
theorem exec_absorbN_absorbs {n : Byte} {s : State} (data : Word64) (he : s.err = false) (hg : s.engine = none)
    (hp : s.phase = .absorb) (hn : n.toNat ≤ 8) (hb : InBlock s) :
    exec (.absorbN n data) s = .next (afterResponse { s with
      lanes := (absorbInto s.rate.toNat (dataBytes n.toNat data) (s.lanes, s.offset.toNat)).1
      offset := BitVec.ofNat 8 (absorbInto s.rate.toNat (dataBytes n.toNat data) (s.lanes, s.offset.toNat)).2 }
      0#64) := by
  obtain ⟨-, h200, hlt⟩ := hb
  simp only [exec, execAbsorbN, State.unlocked_of_no_err he, hp, if_neg (Nat.not_lt.2 hn),
    absorbSteps_ok h200 _ s hg rfl hlt]
  rfl

/-- Settles O21: the three refusals, and the bytes absorbed as `absorbInto` absorbs them. -/
theorem absorbNAbsorbsEachByte : Obligations.AbsorbNAbsorbsEachByte := by
  unfold Obligations.AbsorbNAbsorbsEachByte
  intro n data s he hg
  obtain ⟨hidle, hsqueeze, hcount⟩ := exec_absorbN_refused he n data
  exact ⟨hidle, hsqueeze, hcount, fun hp hn hb => exec_absorbN_absorbs data he hg hp hn hb⟩

/-! ### SQUEEZE_N -/

/-- SQUEEZE_N of a legal count within the limit answers the bytes squeezed. -/
theorem exec_squeezeN_squeezes {n : Byte} {s : State} (he : s.err = false) (hg : s.engine = none)
    (hp : s.phase = .squeeze) (hn : n.toNat ≤ 8) (hl : s.outlim = 0#8 ∨ s.sqcnt.toNat + n.toNat ≤ s.outlim.toNat)
    (ho : InOutput s) :
    exec (.squeezeN n) s = .next (afterResponse (State.countOutput { s with
      lanes := (squeezeFrom s.rate.toNat n.toNat (s.lanes, s.offset.toNat)).2.1
      offset := BitVec.ofNat 8 (squeezeFrom s.rate.toNat n.toNat (s.lanes, s.offset.toNat)).2.2 } n)
      (packBytes (squeezeFrom s.rate.toNat n.toNat (s.lanes, s.offset.toNat)).1)) := by
  obtain ⟨h1, h200, hle⟩ := ho
  have hlimit : ¬ (s.outlim ≠ 0#8 ∧ s.outlim.toNat < s.sqcnt.toNat + n.toNat) := by
    rintro ⟨hne, hlt⟩
    exact hl.elim hne (Nat.not_le.2 hlt)
  simp only [exec, execSqueezeN, State.unlocked_of_no_err he, hp, if_neg (Nat.not_lt.2 hn), if_neg hlimit,
    squeezeSteps_ok h1 h200 n.toNat s hg rfl hle]
  rfl

/-! ### Runs of bytes inside a block -/

/-- Bytes that do not fill the block are XORed in from `OFFSET` on. -/
theorem absorbInto_of_lt {rate : Nat} (bs : List Byte) :
    ∀ (A : Lanes) (off : Nat), off + bs.length < rate →
      absorbInto rate bs (A, off) = (xorBytesAt A off bs, off + bs.length) := by
  induction bs with
  | nil => intro A off h; rfl
  | cons b bs ih =>
    intro A off h
    rw [List.length_cons] at h ⊢
    rw [absorbInto, if_neg (by omega), ih _ _ (by omega), xorBytesAt, Nat.add_right_comm, Nat.add_assoc off]

/-- Bytes squeezed from what is left of a block are its state bytes from `OFFSET` on. -/
theorem squeezeFrom_of_le {rate : Nat} (A : Lanes) (n : Nat) :
    ∀ off : Nat, off + n ≤ rate →
      squeezeFrom rate n (A, off) = ((List.range' off n).map (Lanes.byte A), A, off + n) := by
  induction n with
  | zero => intro off h; rfl
  | succ n ih =>
    intro off h
    simp only [squeezeFrom, if_neg (show ¬ off = rate by omega), ih (off + 1) (by omega), List.range'_succ,
      List.map_cons, Nat.add_right_comm off 1 n, Nat.add_assoc off n 1]

/-- XORing bytes in from `S[j]` on reaches those state bytes and no other. -/
theorem Lanes.byte_xorBytesAt (bs : List Byte) {k : Nat} (hk : k < 200) :
    ∀ (A : Lanes) (j : Nat), Lanes.byte (xorBytesAt A j bs) k =
      if j ≤ k ∧ k < j + bs.length then Lanes.byte A k ^^^ bs.getD (k - j) 0#8 else Lanes.byte A k := by
  induction bs with
  | nil => intro A j; rw [if_neg (by simp)]; rfl
  | cons b bs ih =>
    intro A j
    rw [xorBytesAt, ih, List.length_cons]
    by_cases hjk : j = k
    · subst hjk
      rw [if_neg (by omega), if_pos (by omega), Lanes.byte_xorByte_self _ _ _ hk, Nat.sub_self, List.getD_cons_zero]
    · rw [Lanes.byte_xorByte_ne _ _ _ _ hjk]
      by_cases hin : j + 1 ≤ k ∧ k < j + 1 + bs.length
      · have hsub : k - j = k - (j + 1) + 1 := by omega
        rw [if_pos hin, if_pos (by omega), hsub, List.getD_cons_succ]
      · rw [if_neg hin, if_neg (by omega)]

/-! ### Eight bytes at a lane boundary -/

theorem laneByte_xor (v w : Word64) (k : Nat) : laneByte (v ^^^ w) k = laneByte v k ^^^ laneByte w k :=
  BitVec.extractLsb'_xor

theorem dataBytes_getD (data : Word64) {n k : Nat} (h : k < n) : (dataBytes n data).getD k 0#8 = laneByte data k := by
  simp [dataBytes, h]

/-- Eight bytes XORed in at a lane boundary XOR their word into that lane. -/
theorem xorBytesAt_lane (A : Lanes) {i : Nat} (data : Word64) (h : i < 25) :
    xorBytesAt A (8 * i) (dataBytes 8 data) = Lanes.put A i (Lanes.get A i ^^^ data) := by
  apply Lanes.ext_byte
  intro j hj
  rw [Lanes.byte_xorBytesAt _ hj, dataBytes_length, Lanes.byte_put _ _ _ h]
  by_cases hlane : j / 8 = i
  · have hoff : j - 8 * i = j % 8 := by omega
    rw [if_pos (by omega), if_pos hlane, hoff, dataBytes_getD data (Nat.mod_lt j (by decide)), laneByte_xor,
      Lanes.byte, hlane]
  · rw [if_neg (by omega), if_neg hlane]

/-- The word of the eight state bytes from a lane boundary on is that lane. -/
theorem packBytes_lane (A : Lanes) (i : Nat) :
    packBytes ((List.range' (8 * i) 8).map (Lanes.byte A)) = Lanes.get A i := by
  apply word_ext_laneByte
  intro k hk
  rw [laneByte_packBytes _ hk, ← Lanes.byte_of_lane A i hk]
  simp [hk]

/-- Settles O53: inside the block the bytes run from `S[8i]` on, and eight of them there are lane `i`. -/
theorem alignedTransfersAreWholeLanes : Obligations.AlignedTransfersAreWholeLanes := by
  unfold Obligations.AlignedTransfersAreWholeLanes
  intro s i he hg h200 hoff
  refine ⟨fun data hp hfit => ?absorb, fun hp hl hfit => ?squeeze⟩
  case absorb =>
    refine ⟨_, exec_absorbN_absorbs data he hg hp (Nat.le_refl 8) ⟨by omega, h200, by omega⟩, fun j _ => ?_⟩
    have hrun : absorbInto s.rate.toNat (dataBytes 8 data) (s.lanes, 8 * i) =
        (xorBytesAt s.lanes (8 * i) (dataBytes 8 data), 8 * i + 8) := absorbInto_of_lt _ _ _ hfit
    have hi : i < 25 := by omega
    simp only [afterResponse, hoff, show (8#8).toNat = 8 from rfl, hrun, xorBytesAt_lane s.lanes data hi]
    by_cases hj : j = i
    · rw [if_pos hj, hj, Lanes.get_put_self _ _ _ hi]
    · rw [if_neg hj, Lanes.get_put_ne _ _ _ _ (Ne.symm hj)]
  case squeeze =>
    refine ⟨_, exec_squeezeN_squeezes he hg hp (Nat.le_refl 8) hl ⟨by omega, h200, by omega⟩, ?_⟩
    have hrun : squeezeFrom s.rate.toNat 8 (s.lanes, 8 * i) =
        ((List.range' (8 * i) 8).map (Lanes.byte s.lanes), s.lanes, 8 * i + 8) := squeezeFrom_of_le s.lanes 8 _ hfit
    simp [afterResponse, hoff, hrun, packBytes_lane]

end Sys2Proof.Machine
end

section
/-! PROOFS. The state bytes that absorbing, padding and squeezing a byte reach (spec/20_memory.md R78). -/

namespace Sys2Proof.Machine

/-! ### The lanes a byte step leaves, wherever it answers -/

theorem absorbStep_lanes {b : Byte} {s t : State} (h : absorbStep b s = .ok t) :
    t.lanes = if s.offset + 1#8 = s.rate then keccakF1600 (Lanes.xorByte s.lanes s.offset.toNat b)
      else Lanes.xorByte s.lanes s.offset.toNat b := by
  rw [absorbStep_ok b (absorbStep_frame h).1, State.blockAdvance_eq] at h
  cases h
  split <;> rfl

/-- Padding answers only where both its bytes exist. -/
theorem pad_bytes_exist {s t : State} (h : pad s = .ok t) :
    s.offset.toNat < 200 ∧ 1 ≤ s.rate.toNat ∧ s.rate.toNat ≤ 200 := by
  have hoff : s.offset.toNat < 200 := by
    by_contra hc
    simp [pad, State.xorByte, hc] at h
  have hne : s.rate ≠ 0#8 := by
    intro hz
    simp [pad, State.xorByte, hoff, hz] at h
  have hlast : s.rate.toNat - 1 < 200 := by
    by_contra hc
    simp [pad, State.xorByte, hoff, hne, hc] at h
  have hpos : s.rate.toNat ≠ 0 := fun hz => hne (BitVec.eq_of_toNat_eq hz)
  exact ⟨hoff, by omega, by omega⟩

theorem pad_lanes {s t : State} (h : pad s = .ok t) :
    t.lanes = Lanes.xorByte (Lanes.xorByte s.lanes s.offset.toNat s.delim) (s.rate.toNat - 1) 0x80#8 := by
  obtain ⟨hoff, h1, h200⟩ := pad_bytes_exist h
  rw [pad_ok hoff h1 h200] at h
  cases h
  rfl

theorem squeezeStep_stops {s : State} (h : ¬ s.blockRefill.offset.toNat < 200) :
    squeezeStep s = .error .noSuchStateByte := by simp [squeezeStep, State.readByte, h]

/-- The byte squeezed is `S[OFFSET]`, or `S[0]` of the permuted lanes where the block is exhausted. -/
theorem squeezeStep_lanes {b : Byte} {s t : State} (h : squeezeStep s = .ok (b, t)) :
    t.lanes = (if s.offset = s.rate then keccakF1600 s.lanes else s.lanes) ∧
    b = Lanes.byte t.lanes (if s.offset = s.rate then 0 else s.offset.toNat) := by
  have hbyte : s.blockRefill.offset.toNat < 200 := by
    by_contra hc
    rw [squeezeStep_stops hc] at h
    cases h
  rw [squeezeStep_ok hbyte, State.blockRefill_eq] at h
  cases h
  by_cases hfull : s.offset = s.rate <;> simp [hfull]

/-! ### The bytes they leave alone -/

theorem absorbStep_frame_byte {b : Byte} {s t : State} (h : absorbStep b s = .ok t)
    (hfull : s.offset + 1#8 ≠ s.rate) {j : Nat} (hj : j ≠ s.offset.toNat) :
    Lanes.byte t.lanes j = Lanes.byte s.lanes j := by
  rw [absorbStep_lanes h, if_neg hfull, Lanes.byte_xorByte_ne _ _ _ _ (Ne.symm hj)]

theorem pad_frame_byte {s t : State} (h : pad s = .ok t) {j : Nat} (hoff : j ≠ s.offset.toNat)
    (hlast : j ≠ s.rate.toNat - 1) : Lanes.byte t.lanes j = Lanes.byte s.lanes j := by
  rw [pad_lanes h, Lanes.byte_xorByte_ne _ _ _ _ (Ne.symm hlast), Lanes.byte_xorByte_ne _ _ _ _ (Ne.symm hoff)]

/-- Inside a block `OFFSET + 1` does not wrap, so the byte fills the block exactly when it is the block's last. -/
theorem InBlock.fills_iff {s : State} (hb : InBlock s) :
    s.offset + 1#8 = s.rate ↔ s.offset.toNat + 1 = s.rate.toNat := by
  obtain ⟨-, h200, hlt⟩ := hb
  bv_omega

/-- Settles O38: each access by the lanes its byte step leaves; with `OFFSET` in the block, a byte of the capacity region
is neither `S[OFFSET]` nor `S[RATE-1]`. -/
theorem capacityIsNeverTouchedByByteAccesses : Obligations.CapacityIsNeverTouchedByByteAccesses := by
  unfold Obligations.CapacityIsNeverTouchedByByteAccesses
  refine ⟨?absorbFrame, ?padFrame, ?squeezeFrame, ?absorbRegion, ?padRegion, ?squeezeRegion⟩
  case absorbFrame => exact fun b s t h hfull j _ hj => absorbStep_frame_byte h hfull hj
  case padFrame => exact fun s t h j _ hoff hlast => pad_frame_byte h hoff hlast
  case squeezeFrame =>
    intro s t b h hfull
    rw [(squeezeStep_lanes h).1, if_neg hfull]
  case absorbRegion =>
    intro b s t hb h
    refine ⟨Lanes.xorByte s.lanes s.offset.toNat b, fun j hj _ => ?_, ?_⟩
    · exact Lanes.byte_xorByte_ne _ _ _ _ (by omega)
    · simp only [absorbStep_lanes h, hb.fills_iff]
  case padRegion => exact fun s t hb h j hj _ => pad_frame_byte h (by omega) (by omega)
  case squeezeRegion =>
    intro s t b ho h
    obtain ⟨hlanes, hbyte⟩ := squeezeStep_lanes h
    refine ⟨hlanes, _, ?_, hbyte⟩
    obtain ⟨h1, -, hle⟩ := ho
    split
    · exact h1
    · rename_i hfull
      exact Nat.lt_of_le_of_ne hle fun heq => hfull (BitVec.eq_of_toNat_eq heq)

end Sys2Proof.Machine
end

section
/-! PROOFS. The commands that read (spec/20_memory.md R77; R162, R262, R263): a completed read answers a word of the state
and keeps the state, so it answers the same word again. -/

namespace Sys2Proof.Machine

/-! ### What a read answers -/

theorem exec_readCtx_of_no_err {s : State} (he : s.err = false) : exec .readCtx s = .next (s.respond s.ctxWord) :=
  State.unlocked_of_no_err he _

theorem exec_laneRead_of_no_err {i : Byte} {s : State} (he : s.err = false) (hi : i.toNat ≤ 24) :
    exec (.laneRead i) s = .next (s.respond (Lanes.get s.lanes i.toNat)) := by
  simp only [exec, execLaneRead, State.unlocked_of_no_err he, if_neg (Nat.not_lt.2 hi)]

/-! ### What a completed command had passed -/

/-- A command that the lock holds back completes only while `ERR = 0` (R303). -/
theorem err_of_completed {i : Instr} {s t : State} {r : Response} (hi : ¬ passesLock i.op) (h : exec i s = .next t)
    (hr : t.rsp = some r) (hc : r.code = codeNone) : s.err = false := by
  obtain ⟨-, -, rfl⟩ | ⟨he, -⟩ | ⟨he | hpass, -⟩ := exec_ended h
  · cases hr
    exact absurd hc (by decide)
  · exact he
  · exact he
  · exact absurd hpass hi

theorem laneRead_index_of_completed {i : Byte} {s t : State} {r : Response} (h : exec (.laneRead i) s = .next t)
    (hr : t.rsp = some r) (hc : r.code = codeNone) : i.toNat ≤ 24 := by
  obtain ⟨d, c, e1, e2, e3, hne, rfl⟩ | ⟨hi, -⟩ := exec_effect h
  · cases hr
    exact absurd hc hne
  · exact hi

/-- Settles O39: each completed read is `respond` of a word that a response does not change. -/
theorem readsHaveNoSideEffect : Obligations.ReadsHaveNoSideEffect := by
  unfold Obligations.ReadsHaveNoSideEffect
  intro i s t r hi h hr hc
  cases i with
  | readStatus =>
    cases h
    cases hr
    exact ⟨rfl, rfl⟩
  | readCtx =>
    have he : s.err = false := err_of_completed (by simp [Instr.op]) h hr hc
    rw [exec_readCtx_of_no_err he] at h
    cases h
    cases hr
    exact ⟨rfl, exec_readCtx_of_no_err he⟩
  | laneRead k =>
    have he : s.err = false := err_of_completed (by simp [Instr.op]) h hr hc
    have hk : k.toNat ≤ 24 := laneRead_index_of_completed h hr hc
    rw [exec_laneRead_of_no_err he hk] at h
    cases h
    cases hr
    exact ⟨rfl, exec_laneRead_of_no_err he hk⟩
  | nop | clear | setCtx | initVariant | initCustom | absorbByte | absorbN | finalize | squeezeN | permute | laneWrite =>
    simp [Instr.op] at hi

end Sys2Proof.Machine
end

section
/-! PROOFS. The encoder and the decoder agree (spec/30_encoding.md R103, R107, R108), which words are errors, and which
commands read the data operand (R106). -/

namespace Sys2Proof

/-! ### Decoding by the fields of a word -/

/-- A field of the word that its opcode needs to be 0 is not (R108). -/
def ReservedFieldSet (o : Op) (c : Command) : Prop :=
  c.rsv ≠ 0#8 ∨ (c.arg ≠ 0#8 ∧ o.usesArg = false) ∨ (c.idx ≠ 0#8 ∧ o.usesIdx = false)

theorem decode_of_unassigned {c : Command} (h : Op.ofCode c.op = none) : decode c = .error .illegalOpcode := by
  simp only [decode, h]

theorem decode_of_reserved {c : Command} {o : Op} (ho : Op.ofCode c.op = some o) (h : ReservedFieldSet o c) :
    decode c = .error .reservedField := by
  simp only [decode, ho]
  obtain hrsv | harg | hidx := h
  · rw [if_pos hrsv]
  · rw [if_pos harg, ite_self]
  · rw [if_pos hidx, ite_self, ite_self]

theorem decode_of_not_reserved {c : Command} {o : Op} (ho : Op.ofCode c.op = some o) (h : ¬ ReservedFieldSet o c) :
    decode c = .ok (Instr.ofFields o c.arg c.idx c.data) := by
  simp only [ReservedFieldSet, not_or] at h
  obtain ⟨hrsv, harg, hidx⟩ := h
  simp only [decode, ho, if_neg hrsv, if_neg harg, if_neg hidx]

theorem decode_eq_illegalOpcode {c : Command} : decode c = .error .illegalOpcode ↔ Op.ofCode c.op = none := by
  refine ⟨fun h => ?_, decode_of_unassigned⟩
  cases ho : Op.ofCode c.op with
  | none => rfl
  | some o =>
    by_cases hr : ReservedFieldSet o c
    · simp [decode_of_reserved ho hr] at h
    · simp [decode_of_not_reserved ho hr] at h

theorem decode_eq_reservedField {c : Command} :
    decode c = .error .reservedField ↔ ∃ o, Op.ofCode c.op = some o ∧ ReservedFieldSet o c := by
  refine ⟨fun h => ?_, fun ⟨o, ho, hr⟩ => decode_of_reserved ho hr⟩
  cases ho : Op.ofCode c.op with
  | none => simp [decode_of_unassigned ho] at h
  | some o =>
    refine ⟨o, rfl, ?_⟩
    by_contra hr
    simp [decode_of_not_reserved ho hr] at h

/-! ### The fourteen opcodes as numbers -/

/-- The assigned values of `OP` (R107). -/
def opcodes : List Nat := [0x00, 0x01, 0x02, 0x03, 0x04, 0x10, 0x11, 0x20, 0x21, 0x28, 0x30, 0x40, 0x41, 0x42]

theorem Op.ofCode_eq_none {b : Byte} : Op.ofCode b = none ↔ b.toNat ∉ opcodes := by
  have hcodes : opcodes = Op.all.map fun o => o.code.toNat := by decide
  rw [hcodes, Op.ofCode, List.find?_eq_none, List.mem_map]
  simp only [beq_iff_eq, not_exists, not_and, BitVec.toNat_inj]

theorem Op.ofCode_eq_some {b : Byte} {o : Op} : Op.ofCode b = some o ↔ b = o.code :=
  ⟨fun h => (Op.code_of_ofCode h).symm, fun h => h ▸ Op.ofCode_code o⟩

theorem Op.code_mem_opcodes (o : Op) : o.code.toNat ∈ opcodes := by cases o <;> decide

theorem Op.usesArg_eq_false_iff (o : Op) : o.usesArg = false ↔ o.code.toNat ∉ [0x10, 0x11, 0x20] := by
  cases o <;> decide

theorem Op.usesIdx_eq_false_iff (o : Op) : o.usesIdx = false ↔ o.code.toNat ∉ [0x11, 0x21, 0x30, 0x41, 0x42] := by
  cases o <;> decide

theorem Op.readsData_eq_false_iff (o : Op) : o.readsData = false ↔ o.code.toNat ∉ [0x04, 0x21, 0x41] := by
  cases o <;> decide

/-! ### The encoder -/

/-- The encoded word of every command is a fully legal one in the fields the command does not choose. -/
theorem encode_fields (i : Instr) : Laws.EncodedFields.Statement i := by
  cases i with
  | nop => exact Laws.EncodedFields.nop
  | clear => exact Laws.EncodedFields.clear
  | readStatus => exact Laws.EncodedFields.readStatus
  | readCtx => exact Laws.EncodedFields.readCtx
  | setCtx ctx => exact Laws.EncodedFields.setCtx ctx
  | initVariant id => exact Laws.EncodedFields.initVariant id
  | initCustom delim rate => exact Laws.EncodedFields.initCustom delim rate
  | absorbByte b => exact Laws.EncodedFields.absorbByte b
  | absorbN n data => exact Laws.EncodedFields.absorbN n data
  | finalize => exact Laws.EncodedFields.finalize
  | squeezeN n => exact Laws.EncodedFields.squeezeN n
  | permute => exact Laws.EncodedFields.permute
  | laneWrite k value => exact Laws.EncodedFields.laneWrite k value
  | laneRead k => exact Laws.EncodedFields.laneRead k

/-- The fields a command chooses stand in its encoded word. -/
theorem ofFields_encode (i : Instr) : Instr.ofFields i.op (encode i).arg (encode i).idx (encode i).data = i := by
  cases i <;> simp [encode, Instr.op, Instr.ofFields]

theorem encode_not_reserved (i : Instr) : ¬ ReservedFieldSet i.op (encode i) := by
  obtain ⟨-, hrsv, harg, hidx, -⟩ := encode_fields i
  rintro (hne | ⟨hne, hu⟩ | ⟨hne, hu⟩)
  · exact hne hrsv
  · exact hne (harg hu)
  · exact hne (hidx hu)

theorem decode_encode (i : Instr) : decode (encode i) = .ok i := by
  obtain ⟨hop, -⟩ := encode_fields i
  rw [decode_of_not_reserved (Op.ofCode_eq_some.2 hop) (encode_not_reserved i), ofFields_encode]

/-- A word is its four fields (R103). -/
theorem Command.word_eq_append (c : Command) : c.word = c.rsv ++ c.idx ++ c.arg ++ c.op := by
  simp only [Command.rsv, Command.idx, Command.arg, Command.op]
  rw [BitVec.extractLsb'_append_extractLsb'_eq_extractLsb' (by decide),
    BitVec.extractLsb'_append_extractLsb'_eq_extractLsb' (by decide),
    BitVec.extractLsb'_append_extractLsb'_eq_extractLsb' (by decide)]
  simp

/-- The word of a command whose unused fields are 0 holds all of its fields. -/
theorem encode_ofFields_word {o : Op} {arg idx : Byte} (data : Word64) (harg : o.usesArg = false → arg = 0#8)
    (hidx : o.usesIdx = false → idx = 0#8) : (encode (Instr.ofFields o arg idx data)).word = commandWord o arg idx := by
  cases o <;> simp_all [Instr.ofFields, encode, Op.usesArg, Op.usesIdx]

theorem encode_ofFields_data {o : Op} (arg idx : Byte) (data : Word64) (h : o.readsData = true) :
    (encode (Instr.ofFields o arg idx data)).data = data := by
  cases o <;> simp_all [Instr.ofFields, encode, Op.readsData]

theorem commandWord_toNat (o : Op) (arg idx : Byte) :
    (commandWord o arg idx).toNat = o.code.toNat + 2 ^ 8 * arg.toNat + 2 ^ 16 * idx.toNat := by
  have happend : ∀ {v w : Nat} (x : BitVec v) (y : BitVec w), (x ++ y).toNat = 2 ^ w * x.toNat + y.toNat := by
    intro v w x y
    rw [BitVec.toNat_append, Nat.shiftLeft_eq, Nat.mul_comm, Nat.two_pow_add_eq_or_of_lt y.isLt]
  simp only [commandWord, happend, BitVec.toNat_ofNat]
  omega

/-- A data operand the opcode does not read is dropped (R106). -/
theorem ofFields_congr_data {o : Op} (arg idx : Byte) (d d' : Word64) (h : o.readsData = false) :
    Instr.ofFields o arg idx d = Instr.ofFields o arg idx d' := by
  cases o <;> simp_all [Instr.ofFields, Op.readsData]

/-- Two commands of one word that does not read its data operand decode alike (R106). -/
theorem decode_congr_data (w : Word32) (d d' : Word64) (h : (Command.mk w d).op.toNat ∉ [0x04, 0x21, 0x41]) :
    decode ⟨w, d⟩ = decode ⟨w, d'⟩ := by
  cases ho : Op.ofCode (Command.mk w d).op with
  | none => rw [decode_of_unassigned ho, decode_of_unassigned (c := ⟨w, d'⟩) ho]
  | some o =>
    rw [Op.ofCode_eq_some.1 ho, ← Op.readsData_eq_false_iff] at h
    by_cases hr : ReservedFieldSet o ⟨w, d⟩
    · rw [decode_of_reserved ho hr, decode_of_reserved (c := ⟨w, d'⟩) ho hr]
    · rw [decode_of_not_reserved ho hr, decode_of_not_reserved (c := ⟨w, d'⟩) ho hr]
      exact congrArg _ (ofFields_congr_data _ _ d d' h)

end Sys2Proof

namespace Sys2Proof.Machine

theorem dataBytes_congr {n : Nat} {d d' : Word64} (h : ∀ k, k < n → laneByte d k = laneByte d' k) :
    dataBytes n d = dataBytes n d' :=
  List.map_congr_left fun k hk => h k (List.mem_range.1 hk)

/-! ### The obligations -/

/-- Settles O1: the encoded word passes the decoder's checks, and its fields are the command's. -/
theorem decodeEncodeRoundTrip : Obligations.DecodeEncodeRoundTrip := by
  unfold Obligations.DecodeEncodeRoundTrip
  exact decode_encode

/-- Settles O2: what the decoder drops of the word it has found to be 0. -/
theorem decodedWordIsItsEncoding : Obligations.DecodedWordIsItsEncoding := by
  unfold Obligations.DecodedWordIsItsEncoding
  intro c i h
  obtain ⟨o, ho, hrsv, harg, hidx, rfl⟩ := decode_ok h
  have harg' : o.usesArg = false → c.arg = 0#8 := fun hu => by_contra fun hne => by simp [harg hne] at hu
  have hidx' : o.usesIdx = false → c.idx = 0#8 := fun hu => by_contra fun hne => by simp [hidx hne] at hu
  constructor
  · rw [encode_ofFields_word c.data harg' hidx', commandWord, Op.code_of_ofCode ho, c.word_eq_append, hrsv]
  · rw [Instr.ofFields_op]
    exact encode_ofFields_data c.arg c.idx c.data

/-- Settles O3: the two errors by the two ways to decode to one, the opcodes' columns read as lists of numbers. -/
theorem decodingIsTotalInOrder : Obligations.DecodingIsTotalInOrder := by
  unfold Obligations.DecodingIsTotalInOrder
  intro c
  refine ⟨decode_eq_illegalOpcode.trans Op.ofCode_eq_none, decode_eq_reservedField.trans ?_, fun i h => ?_⟩
  · constructor
    · rintro ⟨o, ho, hr⟩
      rw [ReservedFieldSet, o.usesArg_eq_false_iff, o.usesIdx_eq_false_iff, ← Op.ofCode_eq_some.1 ho] at hr
      exact ⟨Op.ofCode_eq_some.1 ho ▸ o.code_mem_opcodes, hr⟩
    · rintro ⟨hmem, hr⟩
      obtain ⟨o, ho⟩ := Option.ne_none_iff_exists'.1 fun hnone => Op.ofCode_eq_none.1 hnone hmem
      rw [Op.ofCode_eq_some.1 ho, ← o.usesArg_eq_false_iff, ← o.usesIdx_eq_false_iff] at hr
      exact ⟨o, ho, hr⟩
  · obtain ⟨o, -, -, -, -, hi⟩ := decode_ok h
    refine ⟨decode_op h, ?_⟩
    rw [hi, Instr.ofFields_op]

/-- Settles O4: eight closed words. -/
theorem sampleWordsDecode : Obligations.SampleWordsDecode := by
  unfold Obligations.SampleWordsDecode
  decide

/-- Settles O5: the encoder's equation for each command, and the number a command word is. -/
theorem encodedWordsFollowTheOpcodeMap : Obligations.EncodedWordsFollowTheOpcodeMap := by
  unfold Obligations.EncodedWordsFollowTheOpcodeMap
  refine ⟨by decide, ?_⟩
  simp [encode, commandWord_toNat, Op.code]

/-- Settles O6: `decode` drops the data operand of every other opcode, and ABSORB_N looks at its first bytes alone. -/
theorem unreadDataIsIgnored : Obligations.UnreadDataIsIgnored := by
  unfold Obligations.UnreadDataIsIgnored
  constructor
  · intro w d d' s h
    rw [runCommand, runCommand, decode_congr_data w d d' h]
    rfl
  · intro n d d' s h
    rw [exec, exec, execAbsorbN, execAbsorbN, dataBytes_congr h]

/-- Settles O60: eight closed lines. -/
theorem assemblerLines : Obligations.AssemblerLines := by
  unfold Obligations.AssemblerLines
  decide

end Sys2Proof.Machine
end

section
/-! PROOFS. The port at the transaction level (spec/30_encoding.md R101, R102): what a step does on a free port and with
a response pending, a transaction as a command and the delivery of its response, and programs, which run alike whatever
the host does and as the step machine performs them (R265, R347). -/

namespace Sys2Proof.Machine

/-! ### Steps -/

/-- On a free port a step performs the command on offer (R101). -/
theorem step_of_offer {s : State} {c : Command} {rest : List Command} (hp : PortFree s)
    (ho : s.host.offers = c :: rest) : step s = runCommand c (s.accept rest) := by
  obtain ⟨hr, he, hrsp⟩ := hp
  simp [step, portStep, hr, he, hrsp, ho]

theorem step_of_rsp {s : State} {r : Response} (hr : s.host.rst = false) (he : s.engine = none)
    (hrsp : s.rsp = some r) : step s = if s.host.rspReady then .next (s.deliver r) else .next s := by
  simp [step, portStep, hr, he, hrsp]

theorem step_of_nothing {s : State} (hp : PortFree s) (ho : s.host.offers = []) : step s = .next s := by
  obtain ⟨hr, he, hrsp⟩ := hp
  simp [step, portStep, hr, he, hrsp, ho]

theorem runCommand_of_ok {c : Command} {i : Instr} (h : decode c = .ok i) (s : State) : runCommand c s = exec i s := by
  simp only [runCommand, h]

theorem runCommand_of_error {c : Command} {e : DecodeError} (h : decode c = .error e) (s : State) :
    runCommand c s = .next (s.raise (decodeErrorCode e) c.op) := by
  simp only [runCommand, h]

/-! ### What every performed command leaves -/

theorem absorbStep_engine {b : Byte} {s t : State} (h : absorbStep b s = .ok t) (he : s.engine = none) :
    t.engine = none := by
  rw [absorbStep_ok b (absorbStep_frame h).1, State.blockAdvance_eq] at h
  cases h
  split
  · rfl
  · exact he

theorem absorbSteps_engine (bs : List Byte) :
    ∀ {s t : State}, absorbSteps bs s = .ok t → s.engine = none → t.engine = none := by
  induction bs with
  | nil => intro s t h he; cases h; exact he
  | cons b bs ih =>
    intro s t h he
    rw [absorbSteps] at h
    split at h
    · rename_i u hu
      exact ih h (absorbStep_engine hu he)
    · cases h

theorem squeezeStep_engine {b : Byte} {s t : State} (h : squeezeStep s = .ok (b, t)) (he : s.engine = none) :
    t.engine = none := by
  have hrefill : s.blockRefill.engine = none := by
    rw [State.blockRefill_eq]
    split
    · rfl
    · exact he
  rw [squeezeStep] at h
  split at h
  · cases h
    exact hrefill
  · cases h

theorem squeezeSteps_engine (n : Nat) :
    ∀ {s t : State} {bs : List Byte}, squeezeSteps n s = .ok (bs, t) → s.engine = none → t.engine = none := by
  induction n with
  | zero => intro s t bs h he; cases h; exact he
  | succ n ih =>
    intro s t bs h he
    rw [squeezeSteps] at h
    split at h
    · rename_i b u hu
      split at h
      · rename_i cs v hv
        cases h
        exact ih hv (squeezeStep_engine hu he)
      · cases h
    · cases h

/-- No command leaves the engine busy (R152). -/
theorem exec_engine {i : Instr} {s t : State} (h : exec i s = .next t) (he : s.engine = none) : t.engine = none := by
  obtain ⟨d, c, e1, e2, e3, -, rfl⟩ | hd := exec_effect h
  · exact he
  cases i with
  | nop | readStatus | readCtx =>
    obtain ⟨d, rfl⟩ := hd
    exact he
  | clear =>
    cases hd
    rfl
  | setCtx c =>
    obtain ⟨-, ph, -, rfl⟩ := hd
    exact he
  | initVariant | initCustom =>
    obtain ⟨a, b, c, rfl⟩ := hd
    exact he
  | absorbByte b =>
    obtain ⟨-, u, hu, rfl⟩ := hd
    exact absorbStep_engine (t := u) hu he
  | absorbN n data =>
    obtain ⟨-, u, hu, rfl⟩ := hd
    exact absorbSteps_engine (t := u) _ hu he
  | finalize =>
    obtain ⟨-, u, -, rfl⟩ := hd
    exact State.keccakF_engine u
  | squeezeN n =>
    obtain ⟨-, -, -, bs, u, hu, rfl⟩ := hd
    exact (State.countOutput_engine u n).trans (squeezeSteps_engine _ hu he)
  | permute =>
    obtain ⟨-, rfl⟩ := hd
    exact State.keccakF_engine s
  | laneWrite k v =>
    obtain ⟨-, -, rfl⟩ := hd
    exact he
  | laneRead k =>
    obtain ⟨-, rfl⟩ := hd
    exact he

theorem runCommand_engine {c : Command} {s t : State} (h : runCommand c s = .next t) (he : s.engine = none) :
    t.engine = none := by
  obtain ⟨e, -, rfl⟩ | ⟨i, -, hi⟩ := runCommand_next h
  · rw [State.raise_engine, he]
  · exact exec_engine hi he

theorem ErrorCode.code_le (e : ErrorCode) : e.code.toNat ≤ 0x0B := by cases e <;> decide

/-- The response of a command that answers carries a code of R300. -/
theorem exec_rsp_code {i : Instr} {s t : State} (h : exec i s = .next t) :
    ∃ r, t.rsp = some r ∧ r.code.toNat ≤ 0x0B := by
  obtain ⟨-, -, rfl⟩ | ⟨-, e, rfl⟩ | ⟨-, u, d, rfl, -, -⟩ := exec_ended h
  · exact ⟨_, rfl, (by decide : codeLocked.toNat ≤ 0x0B)⟩
  · exact ⟨_, State.raise_rsp _ _ _, e.code_le⟩
  · exact ⟨_, rfl, (by decide : codeNone.toNat ≤ 0x0B)⟩

/-! ### Transactions and programs -/

/-- A transaction is a command and the delivery of the response it leaves (R102). -/
theorem transact_next {c : Command} {s t : State} :
    transact c s = .next t ↔ ∃ u r, runCommand c s = .next u ∧ u.rsp = some r ∧ t = u.deliver r := by
  constructor
  · intro h
    rw [transact] at h
    split at h
    · rename_i u hu
      obtain ⟨-, r, hr⟩ := runCommand_port hu
      rw [hr] at h
      exact ⟨u, r, hu, hr, (Host.Outcome.next.inj h).symm⟩
    · cases h
    · cases h
  · rintro ⟨u, r, hu, hr, rfl⟩
    simp only [transact, hu, hr]

theorem runProgram_cons_next {c : Command} {cs : List Command} {s t : State} :
    runProgram (c :: cs) s = .next t ↔ ∃ u, transact c s = .next u ∧ runProgram cs u = .next t := by
  rw [runProgram]
  cases transact c s <;> simp

/-- With another host side, a transaction answers the same response and leaves the same core. -/
theorem transact_withHost {c : Command} {s t : State} (h : HostSide) (ht : transact c s = .next t) :
    ∃ r, t.host = { s.host with taken := s.host.taken ++ [r] } ∧
      transact c (State.withHost h s) = .next (State.withHost { h with taken := h.taken ++ [r] } t) := by
  obtain ⟨u, r, hu, hr, rfl⟩ := transact_next.1 ht
  obtain ⟨hhost, -⟩ := runCommand_port hu
  refine ⟨r, by rw [State.deliver_host, hhost], transact_next.2 ⟨State.withHost h u, r, ?_, hr, rfl⟩⟩
  rw [run_withHost, hu, Result.withHost]

/-- With another host side, a program delivers the same responses and leaves the same core (R265). -/
theorem runProgram_withHost (cs : List Command) :
    ∀ {s t : State} (h : HostSide), runProgram cs s = .next t →
      ∃ rs, t.host.taken = s.host.taken ++ rs ∧
        runProgram cs (State.withHost h s) = .next (State.withHost { h with taken := h.taken ++ rs } t) := by
  induction cs with
  | nil =>
    intro s t h ht
    cases ht
    exact ⟨[], by simp, by simp [runProgram]⟩
  | cons c cs ih =>
    intro s t h ht
    obtain ⟨u, hu, hcs⟩ := runProgram_cons_next.1 ht
    obtain ⟨r, hhost, hu'⟩ := transact_withHost h hu
    obtain ⟨rs, htaken, hcs'⟩ := ih { h with taken := h.taken ++ [r] } hcs
    refine ⟨r :: rs, by simp [htaken, hhost], runProgram_cons_next.2 ⟨_, hu', ?_⟩⟩
    simpa using hcs'

/-- Two steps of the machine perform one transaction: the command is accepted, then its response is delivered. -/
theorem run_two_steps {c : Command} {cs : List Command} {s u : State} (n : Nat) (hp : PortFree s)
    (hready : s.host.rspReady = true) (hu : transact c (s.accept []) = .next u) :
    PortFree u ∧ u.host.rspReady = true ∧ u.host.offers = [] ∧
      Host.Core.run Sys2Proof.core (n + 2) (s.accept (c :: cs)) = Host.Core.run Sys2Proof.core n (u.accept cs) := by
  obtain ⟨v, r, hv, hr, rfl⟩ := transact_next.1 hu
  obtain ⟨hhost, -⟩ := runCommand_port hv
  obtain ⟨hrst, he, -⟩ := id hp
  replace he : v.engine = none := runCommand_engine hv he
  replace hrst : v.host.rst = false := by rw [hhost]; exact hrst
  have hrdy : v.host.rspReady = true := by rw [hhost]; exact hready
  have haccept : step (s.accept (c :: cs)) = .next (v.accept cs) := by
    calc step (s.accept (c :: cs))
        = runCommand c (State.withHost { s.host with offers := cs } (s.accept [])) := step_of_offer hp rfl
      _ = .next (State.withHost { s.host with offers := cs } v) := by rw [run_withHost, hv, Result.withHost]
      _ = .next (v.accept cs) := by rw [State.accept, hhost]; rfl
  have hdeliver : step (v.accept cs) = .next ((v.accept cs).deliver r) := by
    rw [step_of_rsp (s := v.accept cs) hrst he hr]
    exact if_pos hrdy
  refine ⟨⟨hrst, he, rfl⟩, hrdy, by rw [State.deliver_host, hhost]; rfl, ?_⟩
  rw [run_succ Sys2Proof.core (n + 1) haccept, run_succ Sys2Proof.core n hdeliver]
  rfl

/-- Two steps a command run a host program (R347). -/
theorem run_program (cs : List Command) :
    ∀ {s t : State}, PortFree s → s.host.rspReady = true → runProgram cs (s.accept []) = .next t →
      Host.Core.run Sys2Proof.core (2 * cs.length) (s.accept cs) = .next t := by
  induction cs with
  | nil => intro s t _ _ h; exact h
  | cons c cs ih =>
    intro s t hp hready h
    obtain ⟨u, hu, hcs⟩ := runProgram_cons_next.1 h
    obtain ⟨hp', hready', hoffers, hrun⟩ := run_two_steps (cs := cs) (2 * cs.length) hp hready hu
    have hsame : u.accept [] = u := by rw [← hoffers]; rfl
    rw [List.length_cons, Nat.mul_succ, hrun]
    exact ih hp' hready' (hsame.symm ▸ hcs)

/-! ### The obligations -/

/-- Settles O12: by induction over the program, two steps a command. -/
theorem stepsRunHostPrograms : Obligations.StepsRunHostPrograms := by
  unfold Obligations.StepsRunHostPrograms
  intro cs s t hp hready hoffers h
  have hsame : s.accept cs = s := by rw [← hoffers]; rfl
  rw [← hsame]
  exact run_program cs hp hready h

/-- Settles O45: no command looks at the host's side. -/
theorem equalCoresAnswerAlike : Obligations.EqualCoresAnswerAlike := by
  unfold Obligations.EqualCoresAnswerAlike
  intro cs k t h ht
  obtain ⟨rs, htaken, hrun⟩ := runProgram_withHost cs h ht
  exact ⟨_, rs, hrun, htaken, rfl, rfl⟩

/-- Settles O7: on a free port the command on offer is performed, and it is the one its word decodes to. -/
theorem stepRunsTheDecodedCommand : Obligations.StepRunsTheDecodedCommand := by
  unfold Obligations.StepRunsTheDecodedCommand
  intro s c rest i hp ho hd
  rw [step_of_offer hp ho, runCommand_of_ok hd, State.accept]

/-- Settles O8: the decode error is raised, which the latch records only while it is clear. -/
theorem stepRaisesDecodeErrors : Obligations.StepRaisesDecodeErrors := by
  unfold Obligations.StepRaisesDecodeErrors
  intro s c rest e hp ho hd s' code
  have hcode : (decodeErrorCode e).code = code := by cases e <;> rfl
  rw [step_of_offer hp ho, runCommand_of_error hd, State.raise, hcode]
  by_cases he : s.err = true
  · rw [if_pos he, State.latch_of_err (s := s.accept rest) he]
    rfl
  · rw [if_neg he, State.latch_of_no_err (s := s.accept rest) (by simpa using he)]
    rfl

/-- Settles O9: the two events of a pending response, and no event at all. -/
theorem responsesAreDeliveredOrHeld : Obligations.ResponsesAreDeliveredOrHeld := by
  unfold Obligations.ResponsesAreDeliveredOrHeld
  intro s hr he
  refine ⟨fun r hrsp hready => ?_, fun r hrsp hready => ?_, fun hrsp ho => step_of_nothing ⟨hr, he, hrsp⟩ ho⟩
  · rw [step_of_rsp hr he hrsp, if_pos hready, State.deliver]
  · rw [step_of_rsp hr he hrsp, if_neg (by simp [hready])]

/-- Settles O30: a word that is no command answers an error's code, a command one of the table. -/
theorem responseCodesStayInTheTable : Obligations.ResponseCodesStayInTheTable := by
  unfold Obligations.ResponseCodesStayInTheTable
  intro c s t h
  obtain ⟨e, -, rfl⟩ | ⟨i, -, hi⟩ := runCommand_next h
  · exact ⟨_, State.raise_rsp _ _ _, (decodeErrorCode e).code_le⟩
  · exact exec_rsp_code hi

end Sys2Proof.Machine
end

section
/-! PROOFS. The cycle level (spec/30_encoding.md R101, spec/70_reset_and_hazards.md R345, R346): the edges of a command
in execution, and the edges of a response that waits to be taken. -/

namespace Sys2Proof.Machine

/-! ### A command in execution -/

/-- While a command executes, an edge counts one cycle down and holds every register (R344). -/
theorem tick_executing (t : Timing) (slack : Nat) {p : Pins} {c : ClockState} (hr : p.rst = false)
    (ho : c.outOfReset = true) (hl : c.left ≠ 0) :
    tick t slack p c = .next { core := c.core.drive p, left := c.left - 1, rstSeen := 0, outOfReset := true } := by
  simp [tick, hr, ho, hl]

/-- The edges of a command in execution, up to the one that raises its response. -/
theorem ticks_executing (t : Timing) (ps : List (Nat × Pins)) :
    ∀ {c : ClockState}, c.outOfReset = true → (∀ q, q ∈ ps → q.2.rst = false) → ps.length ≤ c.left →
      ∃ d, ticks t ps c = .next d ∧ d.outOfReset = true ∧ d.left = c.left - ps.length ∧
        d.core = { c.core with host := d.core.host } ∧ d.core.host.taken = c.core.host.taken := by
  induction ps with
  | nil => intro c ho _ _; exact ⟨c, rfl, ho, rfl, rfl, rfl⟩
  | cons q ps ih =>
    intro c ho hps hlen
    obtain ⟨hq, hps⟩ := List.forall_mem_cons.1 hps
    rw [List.length_cons] at hlen ⊢
    have htick := tick_executing t q.1 hq ho (by omega)
    obtain ⟨d, hd, hdo, hdl, hdc, hdt⟩ :=
      ih (c := { core := c.core.drive q.2, left := c.left - 1, rstSeen := 0, outOfReset := true }) rfl hps
        (by simp only; omega)
    refine ⟨d, ?_, hdo, hdl.trans (by simp only; omega), hdc, hdt⟩
    rw [ticks, htick]
    exact hd

/-! ### The edge that accepts a command -/

theorem ready_iff (c : ClockState) :
    c.ready = true ↔ c.outOfReset = true ∧ c.left = 0 ∧ c.core.engine = none ∧ c.core.rsp = none := by
  simp [ClockState.ready, and_assoc]

/-- A ready core accepts the command on its pins, and the response is due after the command's latency (R101, R346). -/
theorem tick_accepting (t : Timing) (slack : Nat) {p : Pins} {c : ClockState} {s' : State} (hc : c.ready = true)
    (hr : p.rst = false) (hv : p.cmdValid = true)
    (hrun : runCommand p.cmd (c.core.drive { p with cmdValid := false }) = .next s') :
    tick t slack p c =
      .next { core := s', left := latency t slack p.cmd (c.core.drive p), rstSeen := 0, outOfReset := true } := by
  obtain ⟨ho, hl, he, hrsp⟩ := (ready_iff c).1 hc
  have hport : portStep (c.core.drive p) = .next s' := by
    rw [← hrun]
    exact step_of_offer (s := c.core.drive p) (rest := []) ⟨hr, he, hrsp⟩ (by simp [hv])
  simp [tick, hr, ho, hl, hport, hc, hv]

/-! ### A response waiting -/

/-- A raised response. -/
abbrev Raised (c : ClockState) (r : Response) : Prop :=
  c.outOfReset = true ∧ c.left = 0 ∧ c.core.engine = none ∧ c.core.rsp = some r

/-- With a response raised, an edge delivers it if the host takes it and holds every register if not (R101, R345). -/
theorem tick_raised (t : Timing) (slack : Nat) {p : Pins} {c : ClockState} {r : Response} (hc : Raised c r)
    (hr : p.rst = false) :
    tick t slack p c =
      .next { core := if p.rspReady then (c.core.drive p).deliver r else c.core.drive p, left := 0, rstSeen := 0,
              outOfReset := true } := by
  obtain ⟨ho, hl, he, hrsp⟩ := hc
  have hready : c.ready = false := by simp [ClockState.ready, hrsp]
  have hport : portStep (c.core.drive p) =
      if p.rspReady then .next ((c.core.drive p).deliver r) else .next (c.core.drive p) :=
    step_of_rsp (s := c.core.drive p) hr he hrsp
  cases hp : p.rspReady <;> simp [tick, hr, ho, hl, hport, hready, hp]

/-- A response no edge takes stays raised, and every register stays as it is. -/
theorem ticks_raised (t : Timing) {r : Response} (ps : List (Nat × Pins)) :
    ∀ {c : ClockState}, Raised c r → (∀ q, q ∈ ps → q.2.rst = false ∧ q.2.rspReady = false) →
      ∃ d, ticks t ps c = .next d ∧ Raised d r ∧ d.core = { c.core with host := d.core.host } ∧
        d.core.host.taken = c.core.host.taken := by
  induction ps with
  | nil => intro c hc _; exact ⟨c, rfl, hc, rfl, rfl⟩
  | cons q ps ih =>
    intro c hc hps
    obtain ⟨⟨hq, hwait⟩, hps⟩ := List.forall_mem_cons.1 hps
    have htick := tick_raised t q.1 hc hq
    rw [hwait, if_neg (by decide)] at htick
    obtain ⟨-, -, he, hrsp⟩ := hc
    obtain ⟨d, hd, hdr, hdc, hdt⟩ :=
      ih (c := { core := c.core.drive q.2, left := 0, rstSeen := 0, outOfReset := true }) ⟨rfl, rfl, he, hrsp⟩ hps
    refine ⟨d, ?_, hdr, hdc, hdt⟩
    rw [ticks, htick]
    exact hd

/-! ### The obligations -/

/-- Settles O56: the accepting edge performs the command, and the edges after it count its latency down. -/
theorem cyclesRefineTransactions : Obligations.CyclesRefineTransactions := by
  unfold Obligations.CyclesRefineTransactions
  intro t slack p ps c s' _ hc hr hv hps hrun hlen
  obtain ⟨-, r, hrsp⟩ := runCommand_port hrun
  obtain ⟨d, hd, hdo, hdl, hdc, hdt⟩ :=
    ticks_executing t ps
      (c := { core := s', left := latency t slack p.cmd (c.core.drive p), rstSeen := 0, outOfReset := true }) rfl hps
      hlen
  have hdrsp : d.core.rsp = s'.rsp := by rw [hdc]
  have hdlanes : d.core.lanes = s'.lanes := by rw [hdc]
  refine ⟨d, ?_, hdrsp, hdlanes, hdc, hdt, ?_, ?_⟩
  · rw [ticks, tick_accepting t slack hc hr hv hrun]
    exact hd
  · simp only [ClockState.outputs, hdo, hdl, hdrsp, hrsp, latency]
    simp only [Bool.not_false, Bool.true_and, Option.isSome_some, Bool.and_true, beq_iff_eq]
    omega
  · simp [ClockState.outputs, ClockState.ready, hdrsp, hrsp]

/-- Settles O57: edges that do not take the response hold it, and the one that takes it delivers it. -/
theorem raisedResponseIsStableUntilTaken : Obligations.RaisedResponseIsStableUntilTaken := by
  unfold Obligations.RaisedResponseIsStableUntilTaken
  intro t c r ps slack p ho hl he hrsp hps hr hready
  obtain ⟨d, hd, hraised, hdc, hdt⟩ := ticks_raised t ps ⟨ho, hl, he, hrsp⟩ hps
  have htick := tick_raised t slack hraised hr
  obtain ⟨hdo, hdl, hde, hdrsp⟩ := hraised
  refine ⟨⟨d, hd, ?_, hdc, hdt⟩, ?_⟩
  · simp [ClockState.outputs, hdo, hdl, hdrsp]
  · rw [hready, if_pos rfl] at htick
    refine ⟨{ core := (d.core.drive p).deliver r, left := 0, rstSeen := 0, outOfReset := true }, ?_, rfl,
      congrArg (· ++ [r]) hdt, (ready_iff _).2 ⟨rfl, rfl, hde, rfl⟩⟩
    rw [ticks_append t ps _ hd, ticks, htick]
    rfl

end Sys2Proof.Machine
end

section
/-! PROOFS. Programs of assembled instructions, and `save` and `restore` (spec/30_encoding.md R112, spec/42_control.md
R265). -/

namespace Sys2Proof.Machine

/-! ### Runs of instructions -/

/-- The response of a command that completes with this word. -/
abbrev completed (d : Word64) : Response := { data := d, code := codeNone }

/-- The state after the host has taken further responses. -/
def State.took (s : State) (rs : List Response) : State :=
  State.withHost { s.host with taken := s.host.taken ++ rs } s

@[simp] theorem State.took_nil (s : State) : s.took [] = s := by simp [State.took, State.withHost]

@[simp] theorem State.took_took (s : State) (rs qs : List Response) : (s.took rs).took qs = s.took (rs ++ qs) := by
  simp [State.took, State.withHost]

@[simp] theorem State.took_taken (s : State) (rs : List Response) : (s.took rs).host.taken = s.host.taken ++ rs := rfl

theorem State.deliver_respond {s : State} (h : s.rsp = none) (d : Word64) :
    (s.respond d).deliver (completed d) = s.took [completed d] := by
  cases s
  cases h
  rfl

/-- These instructions, assembled, run from one state to another. -/
def Runs (is : List Instr) (s t : State) : Prop := runProgram (assembled is) s = .next t

theorem Runs.nil (s : State) : Runs [] s s := rfl

/-- A run that starts with a command that completes. -/
theorem Runs.cons {i : Instr} {is : List Instr} {s u t : State} {d : Word64} (h : exec i s = .next (u.respond d))
    (hu : u.rsp = none) (ht : Runs is (u.took [completed d]) t) : Runs (i :: is) s t := by
  refine runProgram_cons_next.2 ⟨_, transact_next.2 ⟨u.respond d, completed d, ?_, rfl, rfl⟩, ?_⟩
  · rw [runCommand_of_ok (decode_encode i), h]
  · rw [State.deliver_respond hu]
    exact ht

theorem Runs.append {is js : List Instr} {u t : State} (hj : Runs js u t) :
    ∀ {s : State}, Runs is s u → Runs (is ++ js) s t := by
  induction is with
  | nil => intro s hi; cases hi; exact hj
  | cons i is ih =>
    intro s hi
    obtain ⟨v, hv, hrest⟩ := runProgram_cons_next.1 hi
    exact runProgram_cons_next.2 ⟨v, hv, ih hrest⟩

/-! ### The lanes read and written one by one -/

theorem laneIndex_toNat {i : Nat} (h : i < 25) : (BitVec.ofNat 8 i).toNat = i := by
  rw [BitVec.toNat_ofNat]
  omega

theorem exec_laneWrite_of_idle {i : Byte} {s : State} (v : Word64) (he : s.err = false) (hp : s.phase = .idle)
    (hi : i.toNat ≤ 24) :
    exec (.laneWrite i v) s = .next (State.respond { s with lanes := Lanes.put s.lanes i.toNat v } 0#64) := by
  simp only [exec, execLaneWrite, State.unlocked_of_no_err he, if_neg (not_not.2 hp), if_neg (Nat.not_lt.2 hi)]

/-- LANE_READ of these lanes, in order. -/
theorem runs_laneReads (is : List Nat) (his : ∀ i, i ∈ is → i < 25) :
    ∀ {s : State}, s.err = false → s.rsp = none →
      Runs (is.map fun i => .laneRead (BitVec.ofNat 8 i)) s
        (s.took (is.map fun i => completed (Lanes.get s.lanes i))) := by
  induction is with
  | nil => intro s _ _; exact (State.took_nil s).symm ▸ Runs.nil s
  | cons i is ih =>
    intro s he hr
    obtain ⟨hi, his⟩ := List.forall_mem_cons.1 his
    have hread : exec (.laneRead (BitVec.ofNat 8 i)) s = .next (s.respond (Lanes.get s.lanes i)) := by
      rw [exec_laneRead_of_no_err he (by rw [laneIndex_toNat hi]; omega), laneIndex_toNat hi]
    refine Runs.cons hread hr ?_
    have hrest := ih his (s := s.took [completed (Lanes.get s.lanes i)]) he hr
    rw [State.took_took] at hrest
    exact hrest

/-- A lane file with these lanes copied from another, in order. -/
def copyLanes (L : Lanes) (is : List Nat) (A : Lanes) : Lanes := is.foldl (fun B i => Lanes.put B i (Lanes.get L i)) A

theorem get_copyLanes (L : Lanes) (is : List Nat) {j : Nat} (hj : j < 25) :
    ∀ A : Lanes, Lanes.get (copyLanes L is A) j = if j ∈ is then Lanes.get L j else Lanes.get A j := by
  induction is with
  | nil => intro A; rfl
  | cons i is ih =>
    intro A
    rw [copyLanes, List.foldl_cons, ← copyLanes, ih]
    by_cases hij : i = j
    · subst hij
      simp [hj]
    · simp [Lanes.get_put_ne _ _ _ _ hij, Ne.symm hij]

theorem copyLanes_range (L A : Lanes) : copyLanes L (List.range 25) A = L :=
  Lanes.ext_get fun j hj => by rw [get_copyLanes L _ hj, if_pos (List.mem_range.2 hj)]

/-- LANE_WRITE of these lanes of `L`, in order. -/
theorem runs_laneWrites (L : Lanes) (is : List Nat) (his : ∀ i, i ∈ is → i < 25) :
    ∀ {s : State}, s.err = false → s.rsp = none → s.phase = .idle →
      Runs (is.map fun i => .laneWrite (BitVec.ofNat 8 i) (Lanes.get L i)) s
        (State.took { s with lanes := copyLanes L is s.lanes } (List.replicate is.length (completed 0#64))) := by
  induction is with
  | nil => intro s _ _ _; exact (State.took_nil s).symm ▸ Runs.nil s
  | cons i is ih =>
    intro s he hr hp
    obtain ⟨hi, his⟩ := List.forall_mem_cons.1 his
    have hwrite := exec_laneWrite_of_idle (i := BitVec.ofNat 8 i) (Lanes.get L i) he hp
      (by rw [laneIndex_toNat hi]; omega)
    rw [laneIndex_toNat hi] at hwrite
    refine Runs.cons hwrite hr ?_
    have hrest := ih his
      (s := State.took { s with lanes := Lanes.put s.lanes i (Lanes.get L i) } [completed 0#64]) he hr hp
    have hstate : State.took
        { State.took { s with lanes := Lanes.put s.lanes i (Lanes.get L i) } [completed 0#64] with
          lanes := copyLanes L is (Lanes.put s.lanes i (Lanes.get L i)) } (List.replicate is.length (completed 0#64)) =
        State.took { s with lanes := copyLanes L (i :: is) s.lanes }
          (List.replicate (is.length + 1) (completed 0#64)) := by
      simp [State.took, State.withHost, copyLanes, List.replicate_succ]
    exact hstate ▸ hrest

/-! ### `save` and `restore` -/

theorem runs_saveSeq {s : State} (he : s.err = false) (hr : s.rsp = none) :
    Runs saveSeq s
      (s.took (completed s.ctxWord :: (List.range 25).map fun i => completed (Lanes.get s.lanes i))) := by
  refine Runs.cons (exec_readCtx_of_no_err he) hr ?_
  have hreads := runs_laneReads (List.range 25) (fun i hi => List.mem_range.1 hi)
    (s := s.took [completed s.ctxWord]) he hr
  rw [State.took_took] at hreads
  exact hreads

/-- `restore` of a context word SET_CTX accepts, on any core (R112). -/
theorem runs_restoreSeq (L : Lanes) {ctx : Word64} {ph : Phase} (hctx : ctxCheck ctx = some ph) (s : State) :
    Runs (restoreSeq ctx L) s
      (State.took ({ s.cleared with lanes := L }.withContext ctx ph) (List.replicate 27 (completed 0#64))) := by
  have hwrites := runs_laneWrites L (List.range 25) (fun i hi => List.mem_range.1 hi)
    (s := s.cleared.took [completed 0#64]) rfl rfl rfl
  rw [copyLanes_range] at hwrites
  refine Runs.cons (u := s.cleared) (d := 0#64) rfl rfl (Runs.append ?_ hwrites)
  refine Runs.cons (exec_setCtx_accepted rfl rfl hctx) rfl ?_
  simp [Runs, assembled, runProgram, State.took, State.withHost, State.withContext]

/-- The context and the lanes are all of a legal, unlocked core with a free port (R265). -/
theorem withContext_ctxWord {k : State} (hk : Legal k) (he : k.err = false) (hp : PortFree k) (s : State) :
    { s.cleared with lanes := k.lanes }.withContext k.ctxWord k.phase = { k with host := s.host } := by
  obtain ⟨-, -, -, hlatch⟩ := hk
  obtain ⟨hcode, hop⟩ := hlatch he
  obtain ⟨-, hengine, hrsp⟩ := hp
  obtain ⟨hrate, hdelim, hoff, -, -, hlim, hcnt, -, -⟩ := ctxWord_fields k
  simp only [State.withContext, hrate, hdelim, hoff, hlim, hcnt, State.cleared_err, State.cleared_errcode,
    State.cleared_errop, State.cleared_engine, State.cleared_rsp, State.cleared_host, he, hcode, hop, hengine, hrsp]

/-- Settles O44: `save` reads the context and every lane; `restore` clears, writes every lane and sets the context. -/
theorem contextDuplication : Obligations.ContextDuplication := by
  unfold Obligations.ContextDuplication
  intro k k' hk hphase he hp hp'
  obtain ⟨-, -, hrsp⟩ := id hp
  refine ⟨⟨_, runs_saveSeq he hrsp, rfl⟩, _, runs_restoreSeq k.lanes (ctxCheck_ctxWord hk hphase) k', ?_⟩
  rw [withContext_ctxWord hk he hp]
  rfl

end Sys2Proof.Machine
end

section
/-! PROOFS. The sponge as a function of the whole message and of the output length (spec/41_sponge.md R213, R230, R232):
absorbing byte by byte is absorbing block by block, and squeezing byte by byte is reading the output stream. -/

namespace Sys2Proof.Machine

/-! ### Absorbing -/

theorem absorbInto_append (rate : Nat) (bs cs : List Byte) :
    ∀ p : Lanes × Nat, absorbInto rate (bs ++ cs) p = absorbInto rate cs (absorbInto rate bs p) := by
  induction bs with
  | nil => intro p; rfl
  | cons b bs ih =>
    rintro ⟨A, off⟩
    rw [List.cons_append, absorbInto, absorbInto]
    split <;> exact ih _

/-- Bytes that fill the block are XORed in, and the block is permuted (R210). -/
theorem absorbInto_fill {rate : Nat} (bs : List Byte) :
    ∀ (A : Lanes) (off : Nat), bs ≠ [] → off + bs.length = rate →
      absorbInto rate bs (A, off) = (keccakF1600 (xorBytesAt A off bs), 0) := by
  induction bs with
  | nil => intro A off hne _; exact absurd rfl hne
  | cons b bs ih =>
    intro A off _ hlen
    rw [List.length_cons] at hlen
    cases bs with
    | nil => rw [absorbInto, if_pos (by simpa using hlen)]; rfl
    | cons b' bs =>
      have hmore : ¬ off + 1 = rate := by rw [List.length_cons] at hlen; omega
      rw [absorbInto, if_neg hmore, ih _ _ (List.cons_ne_nil _ _) (by omega)]
      rfl

/-- The lanes after the first `n` blocks of a message, each XORed in and permuted (R213). -/
def absorbBlocks (rate : Nat) (msg : List Byte) (n : Nat) : Lanes :=
  (List.range n).foldl (fun A k => keccakF1600 (xorBytesAt A 0 (blockOf rate msg k))) Lanes.zero

theorem absorbBlocks_succ (rate : Nat) (msg : List Byte) (n : Nat) :
    absorbBlocks rate msg (n + 1) = keccakF1600 (xorBytesAt (absorbBlocks rate msg n) 0 (blockOf rate msg n)) := by
  simp [absorbBlocks, List.range_succ]

theorem absorbInto_blocks {rate : Nat} (hr : 0 < rate) (msg : List Byte) (n : Nat) (hn : n * rate ≤ msg.length) :
    absorbInto rate (msg.take (n * rate)) (Lanes.zero, 0) = (absorbBlocks rate msg n, 0) := by
  induction n with
  | zero => simp [absorbInto, absorbBlocks]
  | succ n ih =>
    rw [Nat.succ_mul] at hn ⊢
    have hblock : (blockOf rate msg n).length = rate := by
      rw [blockOf, List.length_take, List.length_drop]
      omega
    have hne : blockOf rate msg n ≠ [] := List.ne_nil_of_length_pos (by omega)
    rw [List.take_add, absorbInto_append, ih (by omega), ← blockOf, absorbInto_fill _ _ _ hne (by omega),
      absorbBlocks_succ]

/-- A message absorbed from the zero state byte by byte is absorbed block by block (R213). -/
theorem absorbInto_message {rate : Nat} (hr : 0 < rate) (msg : List Byte) :
    absorbInto rate msg (Lanes.zero, 0) = (spongeAbsorb rate msg, msg.length % rate) := by
  have hfull : msg.length / rate * rate ≤ msg.length := Nat.div_mul_le_self _ _
  have hrest : (msg.drop (msg.length / rate * rate)).length = msg.length % rate := by
    rw [List.length_drop, Nat.mod_eq_sub_div_mul]
  have hlt : msg.length % rate < rate := Nat.mod_lt _ hr
  calc absorbInto rate msg (Lanes.zero, 0)
      = absorbInto rate (msg.drop (msg.length / rate * rate)) (absorbBlocks rate msg (msg.length / rate), 0) := by
        rw [← absorbInto_blocks hr msg _ hfull, ← absorbInto_append, List.take_append_drop]
    _ = (spongeAbsorb rate msg, msg.length % rate) := by
        rw [absorbInto_of_lt _ _ _ (by omega), hrest, Nat.zero_add]
        rfl

/-! ### Squeezing -/

theorem squeezeFrom_add (rate n m : Nat) :
    ∀ p : Lanes × Nat,
      squeezeFrom rate (n + m) p =
        ((squeezeFrom rate n p).1 ++ (squeezeFrom rate m (squeezeFrom rate n p).2).1,
          (squeezeFrom rate m (squeezeFrom rate n p).2).2) := by
  induction n with
  | zero => intro p; rw [Nat.zero_add]; rfl
  | succ n ih =>
    rintro ⟨A, off⟩
    rw [Nat.succ_add, squeezeFrom, squeezeFrom]
    split <;> simp only [ih, List.cons_append]

/-- Squeezing from `OFFSET` in block `q` of the output reads the output stream from there on (R232). -/
theorem squeezeFrom_stream {rate : Nat} (hr : 0 < rate) (P : Lanes) (n : Nat) :
    ∀ q off : Nat, off ≤ rate →
      (squeezeFrom rate n (keccakPow (1 + q) P, off)).1 =
        (List.range' (q * rate + off) n).map (streamByte rate P) := by
  induction n with
  | zero => intro q off _; rfl
  | succ n ih =>
    intro q off hoff
    rw [squeezeFrom, List.range'_succ, List.map_cons]
    by_cases hfull : off = rate
    · subst hfull
      have hpos : q * off + off = (q + 1) * off := (Nat.succ_mul q off).symm
      have hpow : keccakF1600 (keccakPow (1 + q) P) = keccakPow (1 + (q + 1)) P := rfl
      rw [if_pos rfl, hpos, hpow]
      dsimp only
      rw [ih (q + 1) 1 hr, streamByte, Nat.mul_div_cancel _ hr, Nat.mul_mod_left]
    · have hdiv : (q * rate + off) / rate = q := by
        rw [Nat.mul_comm, Nat.mul_add_div hr, Nat.div_eq_of_lt (by omega), Nat.add_zero]
      have hmod : (q * rate + off) % rate = off := by
        rw [Nat.mul_add_mod_self_right, Nat.mod_eq_of_lt (by omega)]
      rw [if_neg hfull]
      dsimp only
      rw [ih q (off + 1) (by omega), streamByte, hdiv, hmod, Nat.add_assoc]

/-- What is squeezed after the padded state is permuted is the hash of the message (R232). -/
theorem squeezeFrom_spongeHash {rate : Nat} (hr : 0 < rate) (delim : Byte) (msg : List Byte) (len : Nat) :
    (squeezeFrom rate len (keccakF1600 (spongePadded rate delim msg), 0)).1 = spongeHash rate delim msg len := by
  rw [spongeHash, List.range_eq_range']
  simpa [keccakPow] using squeezeFrom_stream hr (spongePadded rate delim msg) len 0 0 (Nat.zero_le _)

end Sys2Proof.Machine
end

section
/-! PROOFS. The `hash` pseudo-instruction (spec/30_encoding.md R112, spec/41_sponge.md R235): its commands absorb the
message, finalize, and deliver the sponge's bytes. -/

namespace Sys2Proof.Machine

/-! ### Groups of eight bytes -/

/-- A property of byte lists holds of all if it holds of the short ones and of eight bytes before a list it holds of. -/
theorem groups_of_eight {P : List Byte → Prop} (short : ∀ bs, bs.length < 8 → P bs)
    (group : ∀ bs rest, bs.length = 8 → P rest → P (bs ++ rest)) (bs : List Byte) : P bs := by
  by_cases h : bs.length < 8
  · exact short bs h
  · have hgroup : (bs.take 8).length = 8 := by rw [List.length_take]; omega
    have hrest : (bs.drop 8).length < bs.length := by rw [List.length_drop]; omega
    rw [← List.take_append_drop 8 bs]
    exact group _ _ hgroup (groups_of_eight short group (bs.drop 8))
termination_by bs.length

theorem absorbSeq_group {bs : List Byte} (h : bs.length = 8) (rest : List Byte) :
    absorbSeq (bs ++ rest) = .absorbN 8#8 (packBytes bs) :: absorbSeq rest := by
  match bs, h with
  | [_, _, _, _, _, _, _, _], _ => rfl

theorem absorbSeq_short {bs : List Byte} (h : bs.length < 8) (hne : bs ≠ []) :
    absorbSeq bs = [.absorbN (BitVec.ofNat 8 bs.length) (packBytes bs)] := by
  match bs, h, hne with
  | [_], _, _ | [_, _], _, _ | [_, _, _], _, _ | [_, _, _, _], _, _ | [_, _, _, _, _], _, _ | [_, _, _, _, _, _], _, _
  | [_, _, _, _, _, _, _], _, _ => rfl

theorem responseWords_group {bs : List Byte} (h : bs.length = 8) (rest : List Byte) :
    responseWords (bs ++ rest) = completed (packBytes bs) :: responseWords rest := by
  match bs, h with
  | [_, _, _, _, _, _, _, _], _ => rfl

theorem responseWords_short {bs : List Byte} (h : bs.length < 8) (hne : bs ≠ []) :
    responseWords bs = [completed (packBytes bs)] := by
  match bs, h, hne with
  | [_], _, _ | [_, _], _, _ | [_, _, _], _, _ | [_, _, _, _], _, _ | [_, _, _, _, _], _, _ | [_, _, _, _, _, _], _, _
  | [_, _, _, _, _, _, _], _, _ => rfl

theorem squeezeSeq_group (len : Nat) : squeezeSeq (8 + len) = .squeezeN 8#8 :: squeezeSeq len := by
  have hdiv : (8 + len) / 8 = len / 8 + 1 := by omega
  have hmod : (8 + len) % 8 = len % 8 := by omega
  rw [squeezeSeq, squeezeSeq, hdiv, hmod, List.replicate_succ, List.cons_append]

theorem squeezeSeq_short {len : Nat} (h : len < 8) (hne : len ≠ 0) :
    squeezeSeq len = [.squeezeN (BitVec.ofNat 8 len)] := by
  rw [squeezeSeq, Nat.div_eq_of_lt h, Nat.mod_eq_of_lt h, if_neg hne]
  rfl

/-! ### Each command of the sequence -/

theorem exec_initVariant_constructs {id : Byte} {v : VariantRow} {s : State} (he : s.err = false)
    (hv : variantRom id = some v) :
    exec (.initVariant id) s = .next ((s.construct v.rate v.delim v.outlim).respond 0#64) := by
  simp only [exec, execInitVariant, State.unlocked_of_no_err he, hv]

theorem exec_absorbN_of_steps {n : Byte} {data : Word64} {s u : State} (he : s.err = false) (hp : s.phase = .absorb)
    (hn : n.toNat ≤ 8) (hu : absorbSteps (dataBytes n.toNat data) s = .ok u) :
    exec (.absorbN n data) s = .next (u.respond 0#64) := by
  simp only [exec, execAbsorbN, State.unlocked_of_no_err he, hp, if_neg (Nat.not_lt.2 hn), hu, finish]

/-- ABSORB_N of the bytes packed in its data operand. -/
theorem exec_absorbN_packed {bs : List Byte} {s u : State} (he : s.err = false) (hp : s.phase = .absorb)
    (hlen : bs.length ≤ 8) (hu : absorbSteps bs s = .ok u) :
    exec (.absorbN (BitVec.ofNat 8 bs.length) (packBytes bs)) s = .next (u.respond 0#64) := by
  have hn : (BitVec.ofNat 8 bs.length).toNat = bs.length := by rw [BitVec.toNat_ofNat]; omega
  refine exec_absorbN_of_steps he hp (by omega) ?_
  rw [hn, dataBytes_packBytes bs hlen, hu]

theorem exec_finalize_of_pad {s u : State} (he : s.err = false) (hp : s.phase = .absorb) (hu : pad s = .ok u) :
    exec .finalize s = .next (u.enterSqueeze.respond 0#64) := by
  simp only [exec, execFinalize, State.unlocked_of_no_err he, hp, hu, finish]

/-! ### Absorbing the message -/

/-- The host's side stays out of absorbing. -/
theorem absorbSteps_took {bs : List Byte} {s u : State} (h : absorbSteps bs s = .ok u) (rs : List Response) :
    absorbSteps bs (s.took rs) = .ok (u.took rs) := by
  have hhost : u.host = s.host := by rw [absorbSteps_frame h]
  rw [State.took, absorbSteps_withHost, h, State.took, hhost]
  rfl

/-- What the commands of a sequence need of the state between them. -/
theorem absorbSteps_keeps {bs : List Byte} {s u : State} (h : absorbSteps bs s = .ok u) :
    u.err = s.err ∧ u.phase = s.phase ∧ u.rsp = s.rsp := by
  rw [absorbSteps_frame h]
  exact ⟨rfl, rfl, rfl⟩

/-- The ABSORB_N commands of a message absorb its bytes, and each answers 0 (R112). -/
theorem runs_absorbSeq (msg : List Byte) :
    ∀ {s u : State}, s.err = false → s.phase = .absorb → s.rsp = none → absorbSteps msg s = .ok u →
      Runs (absorbSeq msg) s (u.took (List.replicate (absorbSeq msg).length (completed 0#64))) := by
  induction msg using groups_of_eight with
  | short bs hlen =>
    intro s u he hp hr hu
    by_cases hne : bs = []
    · subst hne
      cases hu
      exact (State.took_nil s).symm ▸ Runs.nil s
    · obtain ⟨-, -, hur⟩ := absorbSteps_keeps hu
      rw [absorbSeq_short hlen hne]
      exact Runs.cons (exec_absorbN_packed he hp (Nat.le_of_lt hlen) hu) (hur.trans hr) (Runs.nil _)
  | group bs rest hlen ih =>
    intro s u he hp hr hu
    rw [absorbSteps_append] at hu
    split at hu
    · rename_i v hv
      obtain ⟨hve, hvp, hvr⟩ := absorbSteps_keeps hv
      have habsorb := exec_absorbN_packed he hp (Nat.le_of_eq hlen) hv
      rw [hlen] at habsorb
      have hrest := ih (s := v.took [completed 0#64]) (hve.trans he) (hvp.trans hp) (hvr.trans hr)
        (absorbSteps_took hu _)
      rw [State.took_took] at hrest
      rw [absorbSeq_group hlen]
      exact Runs.cons habsorb (hvr.trans hr) hrest
    · cases hu

/-! ### Squeezing the output -/

/-- A state that has still to deliver `len` bytes, and may. -/
structure Delivers (s : State) (len : Nat) : Prop where
  err : s.err = false
  engine : s.engine = none
  rsp : s.rsp = none
  phase : s.phase = .squeeze
  output : InOutput s
  limit : s.outlim = 0#8 ∨ s.sqcnt.toNat + len ≤ s.outlim.toNat

/-- The state after `n` bytes of it have been squeezed and counted. -/
def State.squeezed (s : State) (n : Nat) : State :=
  State.countOutput { s with
    lanes := (squeezeFrom s.rate.toNat n (s.lanes, s.offset.toNat)).2.1
    offset := BitVec.ofNat 8 (squeezeFrom s.rate.toNat n (s.lanes, s.offset.toNat)).2.2 } (BitVec.ofNat 8 n)

theorem Delivers.exec_squeezeN {s : State} {n m : Nat} (h : Delivers s (n + m)) (hn : n ≤ 8) :
    exec (.squeezeN (BitVec.ofNat 8 n)) s =
      .next ((s.squeezed n).respond (packBytes (squeezeFrom s.rate.toNat n (s.lanes, s.offset.toNat)).1)) := by
  have hcount : (BitVec.ofNat 8 n).toNat = n := by rw [BitVec.toNat_ofNat]; omega
  have hlimit : s.outlim = 0#8 ∨ s.sqcnt.toNat + n ≤ s.outlim.toNat := h.limit.imp_right fun _ => by omega
  rw [exec_squeezeN_squeezes h.err h.engine h.phase (by omega) (by rwa [hcount]) h.output, hcount]
  rfl

theorem squeezed_offset {s : State} (ho : InOutput s) (n : Nat) :
    (s.squeezed n).offset.toNat = (squeezeFrom s.rate.toNat n (s.lanes, s.offset.toNat)).2.2 := by
  obtain ⟨h1, h200, hle⟩ := ho
  have hoff := squeezeFrom_offset_le h1 n s.lanes s.offset.toNat hle
  rw [State.squeezed, State.countOutput_offset, BitVec.toNat_ofNat, Nat.mod_eq_of_lt (by omega)]

/-- After `n` bytes the others are still to be delivered. -/
theorem Delivers.squeezed {s : State} {n m : Nat} (h : Delivers s (n + m)) : Delivers (s.squeezed n) m where
  err := by simp [State.squeezed, h.err]
  engine := by simp [State.squeezed, h.engine]
  rsp := by simp [State.squeezed, h.rsp]
  phase := by simp [State.squeezed, h.phase]
  output := by
    obtain ⟨h1, h200, hle⟩ := h.output
    have hoff := squeezeFrom_offset_le h1 n s.lanes s.offset.toNat hle
    have hrate : (s.squeezed n).rate = s.rate := State.countOutput_rate _ _
    rw [InOutput, squeezed_offset h.output, hrate]
    exact ⟨h1, h200, hoff⟩
  limit := by
    have hlim : (s.squeezed n).outlim = s.outlim := State.countOutput_outlim _ _
    rw [hlim]
    refine or_iff_not_imp_left.2 fun hne => ?_
    have hle := h.limit.resolve_left hne
    have hlt := s.outlim.isLt
    rw [State.squeezed, State.countOutput_sqcnt]
    simp only [if_neg hne, BitVec.toNat_add, BitVec.toNat_ofNat]
    omega

theorem Delivers.took {s : State} {n : Nat} (h : Delivers s n) (rs : List Response) : Delivers (s.took rs) n where
  err := h.err
  engine := h.engine
  rsp := h.rsp
  phase := h.phase
  output := h.output
  limit := h.limit

theorem squeezed_taken (s : State) (n : Nat) : (s.squeezed n).host.taken = s.host.taken := by
  rw [State.squeezed, State.countOutput_host]

/-- The bytes of `n + m` squeezes are those of `n`, then those of `m` from the state the first leave. -/
theorem squeezeFrom_squeezed {s : State} (ho : InOutput s) (n m : Nat) :
    (squeezeFrom s.rate.toNat (n + m) (s.lanes, s.offset.toNat)).1 =
      (squeezeFrom s.rate.toNat n (s.lanes, s.offset.toNat)).1 ++
        (squeezeFrom (s.squeezed n).rate.toNat m ((s.squeezed n).lanes, (s.squeezed n).offset.toNat)).1 := by
  have hrate : (s.squeezed n).rate = s.rate := State.countOutput_rate _ _
  have hlanes : (s.squeezed n).lanes = (squeezeFrom s.rate.toNat n (s.lanes, s.offset.toNat)).2.1 :=
    State.countOutput_lanes _ _
  rw [squeezeFrom_add, squeezed_offset ho, hrate, hlanes]

/-- The SQUEEZE_N commands of a length deliver that many bytes, eight in a response (R112). -/
theorem runs_squeezeSeq (len : Nat) :
    ∀ {s : State}, Delivers s len →
      ∃ t, Runs (squeezeSeq len) s t ∧ t.host.taken =
        s.host.taken ++ responseWords (squeezeFrom s.rate.toNat len (s.lanes, s.offset.toNat)).1 := by
  induction len using Nat.strongRecOn with
  | ind len ih =>
    intro s h
    have hbytes := squeezeFrom_length s.rate.toNat len (s.lanes, s.offset.toNat)
    obtain rfl | hpos := Nat.eq_zero_or_pos len
    · exact ⟨s, Runs.nil s, (List.append_nil _).symm⟩
    · by_cases hlt : len < 8
      · have hne : (squeezeFrom s.rate.toNat len (s.lanes, s.offset.toNat)).1 ≠ [] :=
          List.ne_nil_of_length_pos (by omega)
        rw [squeezeSeq_short hlt (by omega), responseWords_short (by omega) hne]
        refine ⟨_, Runs.cons (h.exec_squeezeN (m := 0) (Nat.le_of_lt hlt)) (h.squeezed (m := 0)).rsp (Runs.nil _), ?_⟩
        rw [State.took_taken, squeezed_taken]
      · obtain ⟨m, rfl⟩ := Nat.exists_eq_add_of_le (Nat.not_lt.1 hlt)
        obtain ⟨t, ht, htaken⟩ := ih m (by omega)
          (h.squeezed.took [completed (packBytes (squeezeFrom s.rate.toNat 8 (s.lanes, s.offset.toNat)).1)])
        refine ⟨t, ?_, ?_⟩
        · rw [squeezeSeq_group]
          exact Runs.cons (h.exec_squeezeN (Nat.le_refl 8)) h.squeezed.rsp ht
        · rw [htaken, State.took_taken, squeezed_taken, List.append_assoc, squeezeFrom_squeezed h.output,
            responseWords_group (squeezeFrom_length _ _ _)]
          rfl

/-! ### The whole sequence -/

/-- A new sponge that has absorbed a message (R213). -/
def State.absorbed (s : State) (rate delim outlim : Byte) (msg : List Byte) : State :=
  { s.construct rate delim outlim with
    lanes := spongeAbsorb rate.toNat msg, offset := BitVec.ofNat 8 (msg.length % rate.toNat) }

/-- The same after FINALIZE: the padded state permuted, the output untouched (R221). -/
def State.finalized (s : State) (rate delim outlim : Byte) (msg : List Byte) : State :=
  { s.construct rate delim outlim with
    lanes := keccakF1600 (spongePadded rate.toNat delim msg), phase := .squeeze }

section Sequence

variable {s : State} {rate delim outlim : Byte} (msg : List Byte) (he : s.err = false) (hg : s.engine = none)
  (hr : 1 ≤ rate.toNat ∧ rate.toNat ≤ 200)

include hg hr

theorem absorbSteps_construct :
    absorbSteps msg (s.construct rate delim outlim) = .ok (s.absorbed rate delim outlim msg) := by
  obtain ⟨h1, h200⟩ := hr
  have habsorb := absorbSteps_ok h200 msg (s.construct rate delim outlim) hg rfl h1
  simp only [State.construct_lanes, State.construct_offset, show (0#8).toNat = 0 from rfl,
    absorbInto_message h1] at habsorb
  exact habsorb

include he

theorem exec_finalize_absorbed :
    exec .finalize (s.absorbed rate delim outlim msg) =
      .next ((s.finalized rate delim outlim msg).respond 0#64) := by
  obtain ⟨h1, h200⟩ := hr
  have hlt : msg.length % rate.toNat < rate.toNat := Nat.mod_lt _ h1
  have hoff : (s.absorbed rate delim outlim msg).offset.toNat = msg.length % rate.toNat := by
    rw [State.absorbed, BitVec.toNat_ofNat]
    omega
  have hpad := pad_ok (s := s.absorbed rate delim outlim msg) (by omega) h1 h200
  rw [exec_finalize_of_pad (s := s.absorbed rate delim outlim msg) he rfl hpad, State.enterSqueeze, State.keccakF_eq,
    hoff]
  simp only [State.absorbed, State.finalized, spongePadded, State.construct, hg]

theorem delivers_finalized {len : Nat} (hrsp : s.rsp = none) (hlimit : outlim = 0#8 ∨ len ≤ outlim.toNat) :
    Delivers (s.finalized rate delim outlim msg) len where
  err := he
  engine := hg
  rsp := hrsp
  phase := rfl
  output := ⟨hr.1, hr.2, Nat.zero_le _⟩
  limit := hlimit.imp_right fun h => by simpa [State.finalized] using h

/-- The sequence up to FINALIZE answers 0 to each command and leaves the output to be squeezed. -/
theorem runs_hashSeq {id : Byte} {len : Nat} {t : State} (hrsp : s.rsp = none)
    (hv : variantRom id = some { rate := rate, delim := delim, outlim := outlim })
    (ht : Runs (squeezeSeq len) ((s.finalized rate delim outlim msg).took
      (List.replicate (2 + (absorbSeq msg).length) (completed 0#64))) t) : Runs (hashSeq id msg len) s t := by
  have habsorb := runs_absorbSeq msg (s := (s.took [completed 0#64]).construct rate delim outlim) he rfl hrsp
    (absorbSteps_construct msg hg hr)
  have hfinalize := exec_finalize_absorbed (delim := delim) (outlim := outlim) msg
    (s := (s.took [completed 0#64]).took (List.replicate (absorbSeq msg).length (completed 0#64))) he hg hr
  have hcount : List.replicate (2 + (absorbSeq msg).length) (completed 0#64) =
      [completed 0#64] ++ List.replicate (absorbSeq msg).length (completed 0#64) ++ [completed 0#64] := by
    rw [Nat.add_comm, List.replicate_succ, List.replicate_succ']
    rfl
  rw [hcount, ← State.took_took, ← State.took_took] at ht
  exact Runs.cons (exec_initVariant_constructs he hv) hrsp (Runs.append (Runs.cons hfinalize hrsp ht) habsorb)

end Sequence

/-- Settles O46: a new sponge, the message absorbed, the padded state permuted, and the output stream read. -/
theorem hashSequenceComputesTheSponge : Obligations.HashSequenceComputesTheSponge := by
  unfold Obligations.HashSequenceComputesTheSponge
  intro id rate delim outlim msg len s hv hlimit hp he
  obtain ⟨-, hg, hrsp⟩ := hp
  have hr : 1 ≤ rate.toNat ∧ rate.toNat ≤ 200 := variantRom_rate hv
  obtain ⟨t, ht, htaken⟩ := runs_squeezeSeq len ((delivers_finalized (delim := delim) msg he hg hr hrsp hlimit).took
    (List.replicate (2 + (absorbSeq msg).length) (completed 0#64)))
  refine ⟨t, runs_hashSeq msg he hg hr hrsp hv ht, htaken.trans ?_⟩
  rw [← squeezeFrom_spongeHash hr.1]
  rfl

end Sys2Proof.Machine
end

section
/-! PROOFS. Pi by its tables, the fused rho-and-pi step and the two ROMs (spec/40_permutation.md R143, R146 to R149). -/

namespace Sys2Proof.Machine

/-! ### Pi -/

/-- Pi moves lane `[x,y]` to `[y, 2x+3y]` (R143). -/
theorem piStep_at_dest (A : Lanes) (x y : Fin 5) : Lanes.at (piStep A) y (2 * x + 3 * y) = Lanes.at A x y := by
  have hx : y + 3 * (2 * x + 3 * y) = x := by decide +revert
  rw [piStep, Lanes.at_ofGrid, hx]

/-- Pi moves lane `i` to `PIDEST[i]` (R143). -/
theorem piStep_get_piDest (A : Lanes) {i : Nat} (h : i < 25) :
    Lanes.get (piStep A) (piDest.getD i 0) = Lanes.get A i := by
  have hdest : ∀ x y : Fin 5, piDest.getD (x.val + 5 * y.val) 0 = y.val + 5 * (2 * x + 3 * y).val := by decide
  have hi : i % 5 + 5 * (i / 5) = i := Nat.mod_add_div i 5
  have hgrid := piStep_at_dest A ⟨i % 5, by omega⟩ ⟨i / 5, by omega⟩
  rwa [Lanes.at, Lanes.at, ← hdest, hi] at hgrid

/-- Lane `k` of pi's result is lane `PISRC[k]` (R143). -/
theorem piStep_get (A : Lanes) {k : Nat} (h : k < 25) :
    Lanes.get (piStep A) k = Lanes.get A (piSrc.getD k 0) := by
  obtain ⟨hlt, hdest⟩ : piSrc.getD k 0 < 25 ∧ piDest.getD (piSrc.getD k 0) 0 = k := by decide +revert
  rw [← piStep_get_piDest A hlt, hdest]

theorem rho_get (A : Lanes) {i : Nat} (h : i < 25) : Lanes.get (rho A) i = rotl64 (Lanes.get A i) (rot i) := by
  have hi : i % 5 + 5 * (i / 5) = i := Nat.mod_add_div i 5
  have hgrid : Lanes.at (rho A) ⟨i % 5, by omega⟩ ⟨i / 5, by omega⟩ = _ := Lanes.at_ofGrid _ _ _
  rwa [Lanes.at, Lanes.at, hi] at hgrid

/-- Settles O48: by the lane each form and each table names. -/
theorem piFollowsItsTables : Obligations.PiFollowsItsTables := by
  unfold Obligations.PiFollowsItsTables
  intro A
  exact ⟨fun x y => ⟨piStep_at_dest A x y, Lanes.at_ofGrid _ x y⟩,
    fun i hi => ⟨piStep_get_piDest A hi, piStep_get A hi⟩⟩

/-! ### The fused step -/

/-- A lane that is no destination of the chain stays. -/
theorem rhoPiChain_get_of_not_mem {k : Nat} (ts : List (Nat × Nat)) :
    ∀ (A : Lanes) (last : Lane), k ∉ ts.map Prod.snd → Lanes.get (rhoPiChain ts A last) k = Lanes.get A k := by
  induction ts with
  | nil => intro A last _; rfl
  | cons t ts ih =>
    intro A last hk
    simp only [List.map_cons, List.mem_cons, not_or] at hk
    obtain ⟨hne, hk⟩ := hk
    rw [rhoPiChain, ih _ _ hk, Lanes.get_put_ne _ _ _ _ (Ne.symm hne)]

/-- The moves of the chain, as source, rotation and destination: each step carries the lane that the step before it has
overwritten, the first one lane `q`. -/
def chainMoves : Nat → List (Nat × Nat) → List (Nat × Nat × Nat)
  | _, [] => []
  | q, (r, p) :: ts => (q, r, p) :: chainMoves p ts

/-- Where no destination comes twice, each move of the chain is made on the lanes as they were before the chain, `B`. -/
theorem rhoPiChain_get_of_move {q r p : Nat} (B : Lanes) (ts : List (Nat × Nat)) :
    ∀ (A : Lanes) (q₀ : Nat), (ts.map Prod.snd).Nodup →
      (∀ k ∈ ts.map Prod.snd, k < 25 ∧ Lanes.get A k = Lanes.get B k) → (q, r, p) ∈ chainMoves q₀ ts →
      Lanes.get (rhoPiChain ts A (Lanes.get B q₀)) p = rotl64 (Lanes.get B q) r := by
  induction ts with
  | nil => intro A q₀ _ _ hmove; cases hmove
  | cons t ts ih =>
    obtain ⟨r₁, p₁⟩ := t
    intro A q₀ hnodup hsame hmove
    rw [List.map_cons, List.nodup_cons] at hnodup
    rw [List.map_cons, List.forall_mem_cons] at hsame
    obtain ⟨hfresh, hnodup⟩ := hnodup
    obtain ⟨⟨hlt, hcarried⟩, hsame⟩ := hsame
    rw [rhoPiChain]
    obtain heq | hmove := List.mem_cons.1 hmove
    · cases heq
      rw [rhoPiChain_get_of_not_mem ts _ _ hfresh, Lanes.get_put_self _ _ _ hlt]
    · rw [hcarried]
      refine ih _ p₁ hnodup (fun k hk => ?_) hmove
      have hne : p₁ ≠ k := fun heq => hfresh (heq ▸ hk)
      rw [Lanes.get_put_ne _ _ _ _ hne]
      exact hsame k hk

/-- Every lane but lane 0 has its move in the fused tables: from `PISRC[k]`, with the rotation of that lane. -/
theorem fused_move : ∀ k, k < 25 → k ≠ 0 →
    (piSrc.getD k 0, rot (piSrc.getD k 0), k) ∈ chainMoves 1 (fusedRho.zip fusedPi) := by decide

/-- Settles O47: lane 0 is no destination, pi leaves it and rho does not rotate it; every other lane has its move. -/
theorem fusedRhoPiIsPiAfterRho : Obligations.FusedRhoPiIsPiAfterRho := by
  unfold Obligations.FusedRhoPiIsPiAfterRho
  intro A
  apply Lanes.ext_get
  intro k hk
  have hsrc : piSrc.getD k 0 < 25 := by decide +revert
  rw [piStep_get _ hk, rho_get _ hsrc, rhoPi]
  by_cases h0 : k = 0
  · subst h0
    exact rhoPiChain_get_of_not_mem _ _ _ (by decide)
  · have hdest : ∀ p ∈ (fusedRho.zip fusedPi).map Prod.snd, p < 25 := by decide
    exact rhoPiChain_get_of_move A _ A 1 (by decide) (fun p hp => ⟨hdest p hp, rfl⟩) (fused_move k hk h0)

/-! ### The ROMs and a known value -/

/-- Settles O49: closed tables. -/
theorem tablesAreWhatTheGeneratorsGive : Obligations.TablesAreWhatTheGeneratorsGive := by
  unfold Obligations.TablesAreWhatTheGeneratorsGive
  decide

/-- Settles O50: one closed state. -/
theorem keccakOfTheZeroState : Obligations.KeccakOfTheZeroState := by
  unfold Obligations.KeccakOfTheZeroState
  decide +kernel

end Sys2Proof.Machine
end

section
/-! PROOFS. Keccak-f[1600] is a bijection (spec/40_permutation.md R151): each sub-step of a round is injective, so the
permutation is, and there are finitely many lane files. -/

namespace Sys2Proof.Machine

/-! ### Rotations -/

theorem getLsbD_rotl64 (w : Lane) {n i : Nat} (hn : n < 64) (hi : i < 64) :
    (rotl64 w n).getLsbD i = w.getLsbD ((i + 64 - n) % 64) := by
  unfold rotl64
  split
  · rename_i h0
    rw [h0, Nat.sub_zero, Nat.add_mod_right, Nat.mod_eq_of_lt hi]
  · rw [BitVec.getLsbD_or, BitVec.getLsbD_shiftLeft, BitVec.getLsbD_ushiftRight]
    by_cases hlow : i < n
    · have hbit : (i + 64 - n) % 64 = 64 - n + i := by omega
      simp [hlow, hbit]
    · have hbit : (i + 64 - n) % 64 = i - n := by omega
      simp [hlow, hi, hbit, BitVec.getLsbD_of_ge w (64 - n + i) (by omega)]

theorem rotl64_zero (w : Lane) : rotl64 w 0 = w := rfl

theorem rotl64_xor (v w : Lane) {n : Nat} (hn : n < 64) : rotl64 (v ^^^ w) n = rotl64 v n ^^^ rotl64 w n := by
  apply BitVec.eq_of_getLsbD_eq
  intro i hi
  simp only [BitVec.getLsbD_xor, getLsbD_rotl64 _ hn hi]

theorem rotl64_rotl64 (w : Lane) {m n : Nat} (hm : m < 64) (hn : n < 64) :
    rotl64 (rotl64 w m) n = rotl64 w ((m + n) % 64) := by
  apply BitVec.eq_of_getLsbD_eq
  intro i hi
  have hbit : ((i + 64 - n) % 64 + 64 - m) % 64 = (i + 64 - (m + n) % 64) % 64 := by omega
  rw [getLsbD_rotl64 _ hn hi, getLsbD_rotl64 _ hm (Nat.mod_lt _ (by decide)),
    getLsbD_rotl64 _ (Nat.mod_lt _ (by decide)) hi, hbit]

/-- Rotating on by `64 - n` undoes a rotation by `n`. -/
theorem rotl64_injective {n : Nat} (hn : n < 64) : Function.Injective (rotl64 · n) := by
  have hback : Function.LeftInverse (rotl64 · ((64 - n) % 64)) (rotl64 · n) := by
    intro w
    have hfull : (n + (64 - n) % 64) % 64 = 0 := by omega
    exact (rotl64_rotl64 w hn (Nat.mod_lt _ (by decide))).trans (hfull ▸ rotl64_zero w)
  exact hback.injective

/-! ### Theta

Where theta gives two lane files one result, the differences `e x` of their column parities satisfy
`e x = e (x-1) ^^^ rotl64 (e (x+1)) 1`. The equation put into itself has both distances and the rotation doubled: the
two middle terms cancel, as in a square over GF(2). Six doublings leave a rotation by 64, which is none. -/

/-- Each column is the sum of the two at distance `d` from it, the right one rotated by `m`. -/
def NeighbourSum (e : Fin 5 → Lane) (d : Fin 5) (m : Nat) : Prop :=
  ∀ x, e x = e (x - d) ^^^ rotl64 (e (x + d)) m

theorem NeighbourSum.double {e : Fin 5 → Lane} {d : Fin 5} {m : Nat} (hm : m < 64) (h : NeighbourSum e d m) :
    NeighbourSum e (d + d) ((m + m) % 64) := by
  intro x
  have hleft : e (x - d) = e (x - (d + d)) ^^^ rotl64 (e x) m := by
    rw [h (x - d), sub_sub, sub_add_cancel]
  have hright : rotl64 (e (x + d)) m = rotl64 (e x) m ^^^ rotl64 (e (x + (d + d))) ((m + m) % 64) := by
    rw [h (x + d), add_sub_cancel_right, add_assoc, rotl64_xor _ _ hm, rotl64_rotl64 _ hm hm]
  rw [h x, hleft, hright, BitVec.xor_assoc, xor_cancel_left]

/-- Without a rotation `e` has period 3, so on five columns it is constant, and each column is the sum of two equal
ones. -/
theorem NeighbourSum.eq_zero_of_no_rotation {e : Fin 5 → Lane} (h : NeighbourSum e 1 0) (x : Fin 5) : e x = 0#64 := by
  have hperiod : ∀ x, e (x + 3) = e x := by
    intro x
    have hidx : x + 1 - 1 = x ∧ x + 1 + 1 = x + 2 ∧ x + 2 - 1 = x + 1 ∧ x + 2 + 1 = x + 3 := by decide +revert
    have h1 : e (x + 1) = e x ^^^ e (x + 2) := by simpa only [hidx, rotl64_zero] using h (x + 1)
    have h2 : e (x + 2) = e (x + 1) ^^^ e (x + 3) := by simpa only [hidx, rotl64_zero] using h (x + 2)
    calc e (x + 3) = e (x + 1) ^^^ (e (x + 1) ^^^ e (x + 3)) := (xor_cancel_left _ _).symm
      _ = (e x ^^^ e (x + 2)) ^^^ e (x + 2) := by rw [← h2, ← h1]
      _ = e x := xor_cancel_right _ _
  have hside : e (x + 1) = e (x - 1) := by
    have hidx : x - 1 + 3 + 3 + 3 + 3 = x + 1 := by decide +revert
    rw [← hidx, hperiod, hperiod, hperiod, hperiod]
  rw [h x, hside, rotl64_zero, BitVec.xor_self]

theorem NeighbourSum.eq_zero {e : Fin 5 → Lane} (h : NeighbourSum e 1 1) (x : Fin 5) : e x = 0#64 := by
  have h2 : NeighbourSum e 2 2 := h.double (by decide)
  have h4 : NeighbourSum e 4 4 := h2.double (by decide)
  have h8 : NeighbourSum e 3 8 := h4.double (by decide)
  have h16 : NeighbourSum e 1 16 := h8.double (by decide)
  have h32 : NeighbourSum e 2 32 := h16.double (by decide)
  have h64 : NeighbourSum e 4 0 := h32.double (by decide)
  have h1 : NeighbourSum e 1 0 := by
    intro x
    have hsub : x - 4 = x + 1 := by decide +revert
    have hadd : x + 4 = x - 1 := by decide +revert
    rw [h64 x, hsub, hadd, rotl64_zero, rotl64_zero, BitVec.xor_comm]
  exact h1.eq_zero_of_no_rotation x

/-- Theta adds `D` to each of the five lanes of a column, which leaves one `D` in its parity. -/
theorem thetaC_theta (A : Lanes) (x : Fin 5) : thetaC (theta A) x = thetaC A x ^^^ thetaD A x := by
  have hsum : ∀ a b c d e D : Lane,
      (a ^^^ D) ^^^ (b ^^^ D) ^^^ (c ^^^ D) ^^^ (d ^^^ D) ^^^ (e ^^^ D) =
        (a ^^^ b ^^^ c ^^^ d ^^^ e) ^^^ D ^^^ (D ^^^ D) ^^^ (D ^^^ D) := fun a b c d e D => by ac_rfl
  simp only [thetaC, theta, Lanes.at_ofGrid, hsum, BitVec.xor_self, BitVec.xor_zero]

theorem theta_injective : Function.Injective theta := by
  intro A B h
  have hcols : NeighbourSum (fun x => thetaC A x ^^^ thetaC B x) 1 1 := by
    intro x
    have hx : thetaC A x ^^^ thetaD A x = thetaC B x ^^^ thetaD B x := by rw [← thetaC_theta, ← thetaC_theta, h]
    rw [rotl64_xor _ _ (by decide), ← BitVec.xor_eq_zero_iff]
    rw [← BitVec.xor_eq_zero_iff, thetaD, thetaD] at hx
    dsimp only
    rw [← hx]
    ac_rfl
  have hC : ∀ x, thetaC A x = thetaC B x := fun x => BitVec.xor_eq_zero_iff.1 (hcols.eq_zero x)
  have hD : ∀ x, thetaD A x = thetaD B x := fun x => by rw [thetaD, thetaD, hC, hC]
  apply Lanes.ext_at
  intro x y
  have hxy : Lanes.at (theta A) x y = Lanes.at (theta B) x y := by rw [h]
  rw [theta, theta, Lanes.at_ofGrid, Lanes.at_ofGrid, hD] at hxy
  exact (BitVec.xor_left_inj _).1 hxy

/-! ### Rho and pi -/

theorem rot_lt {i : Nat} (h : i < 25) : rot i < 64 := by
  decide +revert

theorem rho_injective : Function.Injective rho := by
  intro A B h
  apply Lanes.ext_at
  intro x y
  have hxy : Lanes.at (rho A) x y = Lanes.at (rho B) x y := by rw [h]
  rw [rho, rho, Lanes.at_ofGrid, Lanes.at_ofGrid] at hxy
  exact rotl64_injective (rot_lt (by omega)) hxy

theorem piStep_injective : Function.Injective piStep := by
  intro A B h
  apply Lanes.ext_at
  intro x y
  rw [← piStep_at_dest A, h, piStep_at_dest B]

/-! ### Chi and iota -/

/-- Chi on one lane and the two to the right of it (R144). -/
def chiLane (a b c : Lane) : Lane := a ^^^ (~~~b &&& c)

theorem chi_at (A : Lanes) (x y : Fin 5) :
    Lanes.at (chi A) x y = chiLane (Lanes.at A x y) (Lanes.at A (x + 1) y) (Lanes.at A (x + 2) y) :=
  Lanes.at_ofGrid _ _ _

/-- Each lane of a row can be computed from the five that chi makes of the row. -/
theorem chiLane_inverse (a b c d e : Lane) :
    chiLane (chiLane a b c) (chiLane b c d) (chiLane (chiLane c d e) (chiLane d e a) (chiLane e a b)) = a := by
  have hbit : ∀ a b c d e : Bool,
      let f := fun a b c : Bool => a ^^ (!b && c)
      f (f a b c) (f b c d) (f (f c d e) (f d e a) (f e a b)) = a := by decide
  apply BitVec.eq_of_getLsbD_eq
  intro i hi
  simp only [chiLane, BitVec.getLsbD_xor, BitVec.getLsbD_and, BitVec.getLsbD_not, hi, decide_true, Bool.true_and]
  exact hbit _ _ _ _ _

theorem chi_injective : Function.Injective chi := by
  intro A B h
  apply Lanes.ext_at
  intro x y
  have hback : ∀ A : Lanes, Lanes.at A x y =
      chiLane (Lanes.at (chi A) x y) (Lanes.at (chi A) (x + 1) y)
        (chiLane (Lanes.at (chi A) (x + 2) y) (Lanes.at (chi A) (x + 3) y) (Lanes.at (chi A) (x + 4) y)) := by
    intro A
    have hrow : x + 1 + 1 = x + 2 ∧ x + 1 + 2 = x + 3 ∧ x + 2 + 1 = x + 3 ∧ x + 2 + 2 = x + 4 ∧ x + 3 + 1 = x + 4 ∧
        x + 3 + 2 = x ∧ x + 4 + 1 = x ∧ x + 4 + 2 = x + 1 := by decide +revert
    simp only [chi_at, hrow, chiLane_inverse]
  rw [hback A, h, ← hback B]

theorem iota_injective (r : Nat) : Function.Injective (iota · r) := by
  intro A B h
  apply Lanes.ext_get
  intro i hi
  have hget : Lanes.get (iota A r) i = Lanes.get (iota B r) i := by rw [show iota A r = iota B r from h]
  by_cases h0 : i = 0
  · subst h0
    rw [iota, iota, Lanes.get_put_self _ _ _ hi, Lanes.get_put_self _ _ _ hi] at hget
    exact (BitVec.xor_left_inj _).1 hget
  · rwa [iota, iota, Lanes.get_put_ne _ _ _ _ (Ne.symm h0), Lanes.get_put_ne _ _ _ _ (Ne.symm h0)] at hget

/-! ### The permutation -/

theorem round_injective (r : Nat) : Function.Injective (round · r) :=
  (iota_injective r).comp <| chi_injective.comp <| piStep_injective.comp <| rho_injective.comp theta_injective

theorem foldl_round_injective (rs : List Nat) : Function.Injective (rs.foldl round) := by
  induction rs with
  | nil => exact Function.injective_id
  | cons r rs ih => exact ih.comp (round_injective r)

theorem keccakF1600_injective : Function.Injective keccakF1600 := by
  intro A B h
  rw [keccakF1600, keccakF1600] at h
  exact foldl_round_injective _ h

theorem lanes_finite : Finite Lanes :=
  Finite.of_injective (fun (A : Lanes) (i : Fin 25) => A[i]) fun _ _ h => Vector.ext fun i hi => congrFun h ⟨i, hi⟩

/-- Settles O51: every sub-step of a round is injective, and an injective map of a finite type is a bijection. -/
theorem keccakIsABijection : Obligations.KeccakIsABijection := by
  unfold Obligations.KeccakIsABijection
  have := lanes_finite
  exact Finite.injective_iff_bijective.1 keccakF1600_injective

end Sys2Proof.Machine
end

section
/-! PROOFS. The raw-state commands (spec/40_permutation.md R160, R161, R162), case by case. -/

namespace Sys2Proof.Machine

theorem exec_permute_not_idle {s : State} (he : s.err = false) (hp : s.phase ≠ .idle) :
    exec .permute s = .next (afterError s 0x09#8 0x40#8) := by
  simp only [exec, execPermute, State.unlocked_of_no_err he, if_pos hp]
  exact raising_of_no_err he .notIdle .permute

theorem exec_permute_of_idle {s : State} (he : s.err = false) (hp : s.phase = .idle) :
    exec .permute s = .next (s.keccakF.respond 0#64) := by
  simp only [exec, execPermute, State.unlocked_of_no_err he, if_neg (not_not.2 hp)]

theorem exec_laneWrite_not_idle {s : State} (he : s.err = false) (hp : s.phase ≠ .idle) (i : Byte) (v : Word64) :
    exec (.laneWrite i v) s = .next (afterError s 0x09#8 0x41#8) := by
  simp only [exec, execLaneWrite, State.unlocked_of_no_err he, if_pos hp]
  exact raising_of_no_err he .notIdle .laneWrite

theorem exec_laneWrite_bad_index {s : State} (he : s.err = false) (hp : s.phase = .idle) {i : Byte} (hi : 24 < i.toNat)
    (v : Word64) : exec (.laneWrite i v) s = .next (afterError s 0x03#8 0x41#8) := by
  simp only [exec, execLaneWrite, State.unlocked_of_no_err he, if_neg (not_not.2 hp), if_pos hi]
  exact raising_of_no_err he .badOperand .laneWrite

theorem exec_laneRead_bad_index {s : State} (he : s.err = false) {i : Byte} (hi : 24 < i.toNat) :
    exec (.laneRead i) s = .next (afterError s 0x03#8 0x42#8) := by
  simp only [exec, execLaneRead, State.unlocked_of_no_err he, if_pos hi]
  exact raising_of_no_err he .badOperand .laneRead

theorem Lanes.get_put (A : Lanes) {i : Nat} (h : i < 25) (v : Lane) (j : Nat) :
    Lanes.get (Lanes.put A i v) j = if j = i then v else Lanes.get A j := by
  by_cases hj : j = i
  · rw [if_pos hj, hj, Lanes.get_put_self _ _ _ h]
  · rw [if_neg hj, Lanes.get_put_ne _ _ _ _ (Ne.symm hj)]

/-- Settles O24: an idle engine stays idle, so `keccakF` changes the lanes alone. -/
theorem permuteAppliesKeccak : Obligations.PermuteAppliesKeccak := by
  unfold Obligations.PermuteAppliesKeccak
  intro s he hg
  refine ⟨exec_permute_not_idle he, fun hp => ?_⟩
  rw [exec_permute_of_idle he hp, State.keccakF_eq, ← hg]
  rfl

/-- Settles O25: the two refusals in their order, and the one lane that `put` replaces. -/
theorem laneWriteWritesOneLane : Obligations.LaneWriteWritesOneLane := by
  unfold Obligations.LaneWriteWritesOneLane
  intro i v s he
  refine ⟨fun hp => exec_laneWrite_not_idle he hp i v, fun hp hi => exec_laneWrite_bad_index he hp hi v,
    fun hp hi => ?_⟩
  exact ⟨_, exec_laneWrite_of_idle v he hp hi, fun j _ => Lanes.get_put s.lanes (by omega) v j⟩

/-- Settles O26: while `ERR = 0` only the index is checked. -/
theorem laneReadReturnsTheLane : Obligations.LaneReadReturnsTheLane := by
  unfold Obligations.LaneReadReturnsTheLane
  intro i s he
  refine ⟨exec_laneRead_bad_index he, fun hi => ?_⟩
  rw [exec_laneRead_of_no_err he hi, Lanes.get_eq_getElem _ _ (by omega)]
  rfl

end Sys2Proof.Machine
end

section
/-! PROOFS. The permutation counts of the cycle level (spec/30_encoding.md R346, spec/40_permutation.md R152): their
closed forms, and that the lanes a byte step or a command leaves are permuted as often as it counts. -/

namespace Sys2Proof.Machine

/-! ### Closed forms -/

theorem absorbPerms_eq (n : Nat) {rate : Nat} :
    ∀ off : Nat, off < rate → absorbPerms n rate off = (off + n) / rate := by
  induction n with
  | zero => intro off h; exact (Nat.div_eq_of_lt h).symm
  | succ n ih =>
    intro off h
    rw [absorbPerms]
    by_cases hfull : off + 1 = rate
    · have hsum : off + (n + 1) = n + rate := by omega
      rw [if_pos hfull, ih 0 (by omega), hsum, Nat.add_div_right _ (by omega), Nat.zero_add, Nat.add_comm]
    · rw [if_neg hfull, ih (off + 1) (by omega), Nat.add_assoc, Nat.add_comm 1]

theorem squeezePerms_eq (n : Nat) {rate : Nat} (hr : 1 ≤ rate) :
    ∀ off : Nat, off ≤ rate → squeezePerms n rate off = (off + n - 1) / rate := by
  induction n with
  | zero => intro off h; exact (Nat.div_eq_of_lt (by omega)).symm
  | succ n ih =>
    intro off h
    rw [squeezePerms]
    by_cases hfull : off = rate
    · have hsum : off + (n + 1) - 1 = n + rate := by omega
      rw [if_pos hfull, ih 1 hr, hsum, Nat.add_div_right _ hr, Nat.add_sub_cancel_left, Nat.add_comm]
    · have hsum : off + (n + 1) - 1 = off + 1 + n - 1 := by omega
      rw [if_neg hfull, ih (off + 1) (by omega), hsum]

/-! ### Absorbing -/

/-- Absorbing a byte counts one permutation exactly where the byte fills the block. -/
theorem absorbStep_counts {b : Byte} {s t : State} (h : absorbStep b s = .ok t) :
    t.lanes = keccakPow (absorbPerms 1 s.rate.toNat s.offset.toNat) (Lanes.xorByte s.lanes s.offset.toNat b) ∧
    t.rate = s.rate ∧ t.offset.toNat = if s.offset.toNat + 1 = s.rate.toNat then 0 else s.offset.toNat + 1 := by
  have hlt : s.offset.toNat < 200 := (absorbStep_frame h).1
  have hadd : (s.offset + 1#8).toNat = s.offset.toNat + 1 := by bv_omega
  have hfills : s.offset + 1#8 = s.rate ↔ s.offset.toNat + 1 = s.rate.toNat := by rw [← BitVec.toNat_inj, hadd]
  rw [absorbStep_ok b hlt, State.blockAdvance_eq] at h
  cases h
  simp only [hfills, absorbPerms]
  split
  · exact ⟨rfl, rfl, rfl⟩
  · exact ⟨rfl, rfl, hadd⟩

/-- Counts add up along the bytes absorbed. -/
theorem absorbSteps_counts (n : Nat) (bs : List Byte) :
    ∀ {s t : State}, absorbSteps bs s = .ok t →
      absorbPerms (bs.length + n) s.rate.toNat s.offset.toNat =
        absorbPerms bs.length s.rate.toNat s.offset.toNat + absorbPerms n t.rate.toNat t.offset.toNat := by
  induction bs with
  | nil => intro s t h; cases h; simp [absorbPerms]
  | cons b bs ih =>
    intro s t h
    rw [absorbSteps] at h
    split at h
    · rename_i u hu
      obtain ⟨-, hrate, hoff⟩ := absorbStep_counts hu
      have hrest := ih h
      rw [hrate, hoff] at hrest
      rw [List.length_cons, Nat.add_right_comm, absorbPerms, absorbPerms]
      split
      · rename_i hfull
        rw [if_pos hfull] at hrest
        rw [hrest, Nat.add_assoc]
      · rename_i hfull
        rw [if_neg hfull] at hrest
        exact hrest
    · cases h

/-! ### Squeezing -/

theorem keccakPow_succ_apply (k : Nat) (A : Lanes) : keccakPow (k + 1) A = keccakPow k (keccakF1600 A) := by
  induction k with
  | zero => rfl
  | succ k ih => exact congrArg keccakF1600 ih

/-- Squeezing answers only where its byte exists. -/
theorem squeezeStep_byte_exists {s : State} {p : Byte × State} (h : squeezeStep s = .ok p) :
    s.blockRefill.offset.toNat < 200 := by
  by_contra hc
  rw [squeezeStep_stops hc] at h
  cases h

/-- Where squeezing a byte leaves `OFFSET`. -/
theorem squeezeStep_offset {b : Byte} {s t : State} (h : squeezeStep s = .ok (b, t)) :
    t.offset.toNat = if s.offset.toNat = s.rate.toNat then 1 else s.offset.toNat + 1 := by
  have hlt := squeezeStep_byte_exists h
  rw [squeezeStep_ok hlt] at h
  cases h
  rw [State.blockRefill_eq] at hlt ⊢
  simp only [BitVec.toNat_inj]
  split
  · rfl
  · rename_i hfull
    rw [if_neg hfull] at hlt
    bv_omega

/-- Squeezing permutes the lanes as often as it counts. -/
theorem squeezeSteps_counts (n : Nat) :
    ∀ {bs : List Byte} {s t : State}, squeezeSteps n s = .ok (bs, t) →
      t.lanes = keccakPow (squeezePerms n s.rate.toNat s.offset.toNat) s.lanes := by
  induction n with
  | zero => intro bs s t h; cases h; rfl
  | succ n ih =>
    intro bs s t h
    rw [squeezeSteps] at h
    split at h
    · rename_i b u hu
      split at h
      · rename_i cs v hv
        cases h
        have hframe : u = _ := squeezeStep_frame hu
        have hrate : u.rate = s.rate := by rw [hframe]
        rw [ih hv, (squeezeStep_lanes hu).1, hrate, squeezeStep_offset hu, squeezePerms]
        simp only [BitVec.toNat_inj]
        split
        · rw [Nat.add_comm 1, keccakPow_succ_apply]
        · rfl
      · cases h
    · cases h

/-! ### Commands -/

/-- The count of a command that answers: its own if it completes, 0 if it reports an error (R346). -/
theorem permCount_eq {c : Command} {i : Instr} {s t : State} {r : Response} (hd : decode c = .ok i)
    (h : exec i s = .next t) (hr : t.rsp = some r) :
    permCount c s = if r.code = codeNone then Instr.perms i s else 0 := by
  rw [permCount, runCommand_of_ok hd, hd, h]
  simp [hr]

theorem permCount_of_error {c : Command} {e : DecodeError} (hd : decode c = .error e) (s : State) :
    permCount c s = 0 := by
  rw [permCount, hd]

/-- A command that reports an error leaves the lanes. -/
theorem exec_error_lanes {i : Instr} {s t : State} {r : Response} (h : exec i s = .next t) (hr : t.rsp = some r)
    (hc : r.code ≠ codeNone) : t.lanes = s.lanes := by
  obtain ⟨-, -, rfl⟩ | ⟨-, e, rfl⟩ | ⟨-, u, d, rfl, -, -⟩ := exec_ended h
  · rfl
  · exact State.raise_lanes _ _ _
  · cases hr
    exact absurd rfl hc

/-- A command that completes has permuted the lanes as often as it counts. -/
theorem exec_permutesLanes {i : Instr} {s t : State} {r : Response} (h : exec i s = .next t) (hr : t.rsp = some r)
    (hc : r.code = codeNone) : PermutesLanes i (Instr.perms i s) s t := by
  obtain ⟨d, c, e1, e2, e3, hne, rfl⟩ | hd := exec_effect h
  · cases hr
    exact absurd hc hne
  cases i with
  | nop | readStatus | readCtx =>
    obtain ⟨d, rfl⟩ := hd
    exact ⟨rfl, rfl⟩
  | clear =>
    cases hd
    exact ⟨rfl, rfl⟩
  | setCtx c =>
    obtain ⟨-, ph, -, rfl⟩ := hd
    exact ⟨rfl, rfl⟩
  | initVariant | initCustom =>
    obtain ⟨a, b, c, rfl⟩ := hd
    exact ⟨rfl, rfl⟩
  | absorbByte b =>
    obtain ⟨-, u, hu, rfl⟩ := hd
    exact (absorbStep_counts hu).1
  | absorbN n data =>
    obtain ⟨-, u, hu, rfl⟩ := hd
    exact ⟨rfl, u, hu, rfl⟩
  | finalize =>
    obtain ⟨-, u, hu, rfl⟩ := hd
    exact ⟨rfl, u, hu, State.keccakF_lanes u⟩
  | squeezeN n =>
    obtain ⟨-, -, -, bs, u, hu, rfl⟩ := hd
    exact (State.countOutput_lanes u n).trans (squeezeSteps_counts _ hu)
  | permute =>
    obtain ⟨-, rfl⟩ := hd
    exact ⟨rfl, State.keccakF_lanes s⟩
  | laneWrite k v =>
    obtain ⟨-, -, rfl⟩ := hd
    exact ⟨rfl, rfl⟩
  | laneRead k =>
    obtain ⟨-, rfl⟩ := hd
    exact ⟨rfl, rfl⟩

/-- Settles O58: the closed forms, the byte steps, and a command by whether it decodes and by its code. -/
theorem permutationCounts : Obligations.PermutationCounts := by
  unfold Obligations.PermutationCounts
  refine ⟨fun _ off n => absorbPerms_eq n off, fun _ off n hr hoff _ => squeezePerms_eq n hr off hoff,
    fun b s t h => (absorbStep_counts h).1, fun bs n s t => absorbSteps_counts n bs,
    fun n bs s t => squeezeSteps_counts n, fun c s t r h hr => ?commands⟩
  obtain ⟨e, hd, rfl⟩ | ⟨i, hd, hi⟩ := runCommand_next h
  · rw [State.raise_rsp] at hr
    cases hr
    exact ⟨fun _ => ⟨permCount_of_error hd s, State.raise_lanes _ _ _⟩,
      fun hc => absurd hc (decodeErrorCode e).code_ne_none⟩
  · rw [permCount_eq hd hi hr]
    refine ⟨fun hc => ⟨if_neg hc, exec_error_lanes hi hr hc⟩, fun hc => ⟨i, hd, ?_⟩⟩
    rw [if_pos (show r.code = codeNone from hc)]
    exact exec_permutesLanes hi hr hc

end Sys2Proof.Machine
end

section
/-! PROOFS. What a command answers, but for the lanes and the response word, depends on no lane and no data byte
(spec/40_permutation.md R152, spec/70_reset_and_hazards.md R346). -/

namespace Sys2Proof.Machine

/-! ### States and results that differ in data alone -/

/-- The state with other lanes. -/
abbrev State.withLanes (A : Lanes) (s : State) : State := { s with lanes := A }

/-- The same state but for the lanes and the response word. -/
def Alike (t t' : State) : Prop :=
  t' = { t with lanes := t'.lanes, rsp := t'.rsp } ∧ t'.rsp.map (·.code) = t.rsp.map (·.code)

/-- Where the first result is a next state, the second is one like it. -/
def AnswersAlike (r r' : Result) : Prop := ∀ t, r = .next t → ∃ t', r' = .next t' ∧ Alike t t'

theorem alike_answer (s : State) (A : Lanes) (d d' : Word64) (c : Byte) :
    Alike (s.answer d c) ((State.withLanes A s).answer d' c) := ⟨rfl, rfl⟩

theorem AnswersAlike.of_alike {t t' : State} (h : Alike t t') : AnswersAlike (.next t) (.next t') := by
  intro u hu
  cases hu
  exact ⟨t', rfl, h⟩

theorem raise_alike (s : State) (A : Lanes) (e : ErrorCode) (op : Byte) :
    Alike (s.raise e op) ((State.withLanes A s).raise e op) := by
  cases he : s.err
  · rw [State.raise_of_no_err he, State.raise_of_no_err (s := State.withLanes A s) he]
    exact ⟨rfl, rfl⟩
  · rw [State.raise_of_err he, State.raise_of_err (s := State.withLanes A s) he]
    exact alike_answer s A _ _ _

theorem raising_alike (s : State) (A : Lanes) (e : ErrorCode) (o : Op) :
    AnswersAlike (raising s e o) (raising (State.withLanes A s) e o) :=
  .of_alike (raise_alike s A e o.code)

theorem unlocked_alike (s : State) (A : Lanes) {r r' : Result} (h : AnswersAlike r r') :
    AnswersAlike (s.unlocked r) ((State.withLanes A s).unlocked r') := by
  cases he : s.err
  · rw [State.unlocked_of_no_err he, State.unlocked_of_no_err (s := State.withLanes A s) he]
    exact h
  · rw [State.unlocked_of_err he, State.unlocked_of_err (s := State.withLanes A s) he]
    exact .of_alike (alike_answer s A _ _ _)

/-- A check that both runs make alike. -/
theorem AnswersAlike.ite {p : Prop} [Decidable p] {r₁ r₁' r₂ r₂' : Result} (h₁ : AnswersAlike r₁ r₁')
    (h₂ : AnswersAlike r₂ r₂') : AnswersAlike (if p then r₁ else r₂) (if p then r₁' else r₂') := by
  split
  · exact h₁
  · exact h₂

/-! ### The byte loops -/

theorem absorbStep_withLanes {b : Byte} {s t : State} (A : Lanes) (b' : Byte) (h : absorbStep b s = .ok t) :
    ∃ B, absorbStep b' (State.withLanes A s) = .ok (State.withLanes B t) := by
  have hlt : s.offset.toNat < 200 := (absorbStep_frame h).1
  rw [absorbStep_ok b hlt, State.blockAdvance_eq] at h
  rw [absorbStep_ok b' (s := State.withLanes A s) hlt, State.blockAdvance_eq]
  cases h
  dsimp only
  split <;> exact ⟨_, rfl⟩

theorem absorbSteps_withLanes (bs : List Byte) :
    ∀ {s t : State} (A : Lanes) (bs' : List Byte), bs'.length = bs.length → absorbSteps bs s = .ok t →
      ∃ B, absorbSteps bs' (State.withLanes A s) = .ok (State.withLanes B t) := by
  induction bs with
  | nil =>
    intro s t A bs' hlen h
    cases h
    rw [List.length_eq_zero_iff.1 hlen]
    exact ⟨A, rfl⟩
  | cons b bs ih =>
    intro s t A bs' hlen h
    obtain ⟨b', bs', rfl⟩ := List.exists_cons_of_length_eq_add_one hlen
    rw [absorbSteps] at h ⊢
    split at h
    · rename_i u hu
      obtain ⟨B, hB⟩ := absorbStep_withLanes A b' hu
      rw [hB]
      exact ih B bs' (Nat.succ.inj hlen) h
    · cases h

theorem pad_withLanes {s t : State} (A : Lanes) (h : pad s = .ok t) :
    ∃ B, pad (State.withLanes A s) = .ok (State.withLanes B t) := by
  obtain ⟨hoff, h1, h200⟩ := pad_bytes_exist h
  rw [pad_frame h, pad_ok (s := State.withLanes A s) hoff h1 h200]
  exact ⟨_, rfl⟩

theorem blockRefill_withLanes (s : State) (A : Lanes) :
    ∃ B, (State.withLanes A s).blockRefill = State.withLanes B s.blockRefill := by
  rw [State.blockRefill_eq, State.blockRefill_eq]
  dsimp only
  split <;> exact ⟨_, rfl⟩

theorem squeezeStep_withLanes {b : Byte} {s t : State} (A : Lanes) (h : squeezeStep s = .ok (b, t)) :
    ∃ b' B, squeezeStep (State.withLanes A s) = .ok (b', State.withLanes B t) := by
  obtain ⟨B, hB⟩ := blockRefill_withLanes s A
  have hlt := squeezeStep_byte_exists h
  rw [squeezeStep_ok hlt] at h
  cases h
  exact ⟨_, B, by rw [squeezeStep_ok (by rw [hB]; exact hlt), hB]⟩

theorem squeezeSteps_withLanes (n : Nat) :
    ∀ {bs : List Byte} {s t : State} (A : Lanes), squeezeSteps n s = .ok (bs, t) →
      ∃ bs' B, squeezeSteps n (State.withLanes A s) = .ok (bs', State.withLanes B t) := by
  induction n with
  | zero => intro bs s t A h; cases h; exact ⟨[], A, rfl⟩
  | succ n ih =>
    intro bs s t A h
    rw [squeezeSteps] at h ⊢
    split at h
    · rename_i b u hu
      obtain ⟨b', B, hB⟩ := squeezeStep_withLanes A hu
      rw [hB]
      split at h
      · rename_i cs v hv
        cases h
        obtain ⟨cs', C, hC⟩ := ih B hv
        dsimp only
        rw [hC]
        exact ⟨_, C, rfl⟩
      · cases h
    · cases h

/-! ### Commands -/

/-- A byte loop that both runs end alike, before they respond. -/
theorem finish_alike {x x' : Except Fault State} {done : State → State}
    (hx : ∀ u, x = .ok u → ∃ B, x' = .ok (State.withLanes B u))
    (hdone : ∀ u B, Alike (done u) (done (State.withLanes B u))) : AnswersAlike (finish x done) (finish x' done) := by
  intro t ht
  obtain ⟨u, hu, rfl⟩ := finish_ok ht
  obtain ⟨B, hB⟩ := hx u hu
  rw [hB]
  exact ⟨_, rfl, hdone u B⟩

theorem enterSqueeze_alike (u : State) (B : Lanes) :
    Alike (u.enterSqueeze.respond 0#64) ((State.withLanes B u).enterSqueeze.respond 0#64) := by
  rw [State.enterSqueeze, State.enterSqueeze, State.keccakF_eq, State.keccakF_eq]
  exact ⟨rfl, rfl⟩

theorem countOutput_alike (u : State) (B : Lanes) (n : Byte) (d d' : Word64) :
    Alike ((u.countOutput n).respond d) (((State.withLanes B u).countOutput n).respond d') := by
  unfold State.countOutput
  dsimp only
  split <;> exact ⟨rfl, rfl⟩

/-- A command answers alike whatever the lanes are, and whatever data it reads unless it reads a context word. -/
theorem exec_alike (o : Op) (arg idx : Byte) (d d' : Word64) (s : State) (A : Lanes) (hctx : o = .setCtx → d = d') :
    AnswersAlike (exec (Instr.ofFields o arg idx d) s) (exec (Instr.ofFields o arg idx d') (State.withLanes A s)) := by
  have raised := raising_alike s A
  cases o with
  | nop | readStatus | clear => exact .of_alike ⟨rfl, rfl⟩
  | readCtx => exact unlocked_alike s A (.of_alike ⟨rfl, rfl⟩)
  | setCtx =>
    cases hctx rfl
    refine unlocked_alike s A (.ite (raised _ _) ?_)
    split
    · exact raised _ _
    · exact .of_alike ⟨rfl, rfl⟩
  | initVariant =>
    refine unlocked_alike s A ?_
    split
    · exact raised _ _
    · exact .of_alike ⟨rfl, rfl⟩
  | initCustom => exact unlocked_alike s A (.ite (raised _ _) (.of_alike ⟨rfl, rfl⟩))
  | permute =>
    refine unlocked_alike s A (.ite (raised _ _) (.of_alike ?_))
    rw [State.keccakF_eq, State.keccakF_eq]
    exact ⟨rfl, rfl⟩
  | laneWrite => exact unlocked_alike s A (.ite (raised _ _) (.ite (raised _ _) (.of_alike ⟨rfl, rfl⟩)))
  | laneRead => exact unlocked_alike s A (.ite (raised _ _) (.of_alike ⟨rfl, rfl⟩))
  | absorbByte =>
    refine unlocked_alike s A ?_
    dsimp only
    split
    · exact raised _ _
    · exact raised _ _
    · exact finish_alike (fun u hu => absorbStep_withLanes A _ hu) fun u B => ⟨rfl, rfl⟩
  | absorbN =>
    refine unlocked_alike s A ?_
    dsimp only
    split
    · exact raised _ _
    · exact raised _ _
    · refine .ite (raised _ _) (finish_alike (fun u hu => ?_) fun u B => ⟨rfl, rfl⟩)
      exact absorbSteps_withLanes _ A _ (by simp) hu
  | finalize =>
    refine unlocked_alike s A ?_
    dsimp only
    split
    · exact raised _ _
    · exact raised _ _
    · exact finish_alike (fun u hu => pad_withLanes A hu) enterSqueeze_alike
  | squeezeN =>
    refine unlocked_alike s A ?_
    dsimp only
    split
    · exact raised _ _
    · exact raised _ _
    · refine .ite (raised _ _) (.ite (raised _ _) ?_)
      intro t ht
      split at ht
      · cases ht
      · rename_i bs u hu
        cases ht
        obtain ⟨bs', B, hB⟩ := squeezeSteps_withLanes _ A hu
        rw [hB]
        exact ⟨_, rfl, countOutput_alike u B idx _ _⟩

/-- Two commands of one word decode to the same error, or to commands of the same fields (R106). -/
theorem decode_same_word {c c' : Command} (hw : c.word = c'.word) :
    (∃ e, decode c = .error e ∧ decode c' = .error e) ∨
    ∃ o arg idx, decode c = .ok (Instr.ofFields o arg idx c.data) ∧
      decode c' = .ok (Instr.ofFields o arg idx c'.data) := by
  obtain ⟨w, d⟩ := c
  obtain ⟨w', d'⟩ := c'
  cases hw
  cases ho : Op.ofCode (Command.mk w d).op with
  | none => exact .inl ⟨_, decode_of_unassigned ho, decode_of_unassigned (c := ⟨w, d'⟩) ho⟩
  | some o =>
    by_cases hr : ReservedFieldSet o ⟨w, d⟩
    · exact .inl ⟨_, decode_of_reserved ho hr, decode_of_reserved (c := ⟨w, d'⟩) ho hr⟩
    · exact .inr ⟨o, _, _, decode_of_not_reserved ho hr, decode_of_not_reserved (c := ⟨w, d'⟩) ho hr⟩

/-- A command's own count looks at no lane and no data (R346). -/
theorem perms_congr_data (o : Op) (arg idx : Byte) (d d' : Word64) (s : State) (A : Lanes) :
    Instr.perms (Instr.ofFields o arg idx d) s = Instr.perms (Instr.ofFields o arg idx d') (State.withLanes A s) := by
  cases o <;> rfl

/-- Settles O59: both words raise one error, or both decode to commands that answer alike; the count then follows
from the code and the registers. -/
theorem timingDoesNotDependOnData : Obligations.TimingDoesNotDependOnData := by
  unfold Obligations.TimingDoesNotDependOnData
  intro c c' s t A _ hw hctx h
  obtain ⟨e, hd, hd'⟩ | ⟨o, arg, idx, hd, hd'⟩ := decode_same_word hw
  · have hop : c'.op = c.op := by rw [Command.op, Command.op, hw]
    rw [runCommand_of_error hd] at h
    cases h
    obtain ⟨heq, hcode⟩ := raise_alike s A (decodeErrorCode e) c.op
    refine ⟨_, runCommand_of_error hd' _, hop ▸ heq, hop ▸ hcode, ?_⟩
    rw [permCount_of_error hd, permCount_of_error hd']
  · rw [runCommand_of_ok hd] at h
    have hdata : o = .setCtx → c.data = c'.data := by
      rintro rfl
      rw [← hctx hd]
    obtain ⟨t', ht', heq, hcode⟩ := exec_alike o arg idx c.data c'.data s A hdata t h
    refine ⟨t', (runCommand_of_ok hd' _).trans ht', heq, hcode, ?_⟩
    obtain ⟨r, hr⟩ := exec_rsp h
    obtain ⟨r', hr'⟩ := exec_rsp ht'
    have hrr : r'.code = r.code := by simpa [hr, hr'] using hcode
    rw [permCount_eq hd h hr, permCount_eq hd' ht' hr', hrr, perms_congr_data]

end Sys2Proof.Machine
end

section
/-! PROOFS. A message absorbed by any list of absorb commands (spec/41_sponge.md R210, R212, R213): a run of them absorbs
the bytes of all of them, one after another. -/

namespace Sys2Proof.Machine

/-- An absorb command of a legal count absorbs its bytes and answers 0 (R211, R212). -/
theorem exec_isAbsorb {i : Instr} {s u : State} (hi : isAbsorb i = true) (he : s.err = false) (hp : s.phase = .absorb)
    (hu : absorbSteps (absorbedBytes i) s = .ok u) : exec i s = .next (u.respond 0#64) := by
  cases i with
  | absorbByte b =>
    rw [absorbedBytes, absorbSteps_singleton] at hu
    simp only [exec, execAbsorbByte, State.unlocked_of_no_err he, hp, hu, finish]
  | absorbN n data => exact exec_absorbN_of_steps he hp (of_decide_eq_true hi) hu
  | _ => cases hi

/-- Absorb commands absorb all their bytes in order, and each answers 0. -/
theorem runs_absorbs (is : List Instr) :
    ∀ {s u : State}, (∀ i, i ∈ is → isAbsorb i = true) → s.err = false → s.phase = .absorb → s.rsp = none →
      absorbSteps (is.flatMap absorbedBytes) s = .ok u →
      Runs is s (u.took (List.replicate is.length (completed 0#64))) := by
  induction is with
  | nil =>
    intro s u _ _ _ _ hu
    cases hu
    exact (State.took_nil s).symm ▸ Runs.nil s
  | cons i is ih =>
    intro s u his he hp hr hu
    obtain ⟨hi, his⟩ := List.forall_mem_cons.1 his
    rw [List.flatMap_cons, absorbSteps_append] at hu
    split at hu
    · rename_i v hv
      obtain ⟨hve, hvp, hvr⟩ := absorbSteps_keeps hv
      have hrest := ih (s := v.took [completed 0#64]) his (hve.trans he) (hvp.trans hp) (hvr.trans hr)
        (absorbSteps_took hu _)
      rw [State.took_took] at hrest
      exact Runs.cons (exec_isAbsorb hi he hp hv) (hvr.trans hr) hrest
    · cases hu

/-- Settles O40: the commands absorb the message byte by byte, which from zero lanes is absorbing it block by block. -/
theorem streamingEquivalence : Obligations.StreamingEquivalence := by
  unfold Obligations.StreamingEquivalence
  intro is s his hport he hp hb hoff hlanes
  obtain ⟨-, hg, hr⟩ := hport
  obtain ⟨h1, h200, hlt⟩ := hb
  have habsorb := absorbSteps_ok h200 (is.flatMap absorbedBytes) s hg rfl hlt
  rw [hlanes, hoff, show (0#8).toNat = 0 from rfl, absorbInto_message h1] at habsorb
  have hmod : (is.flatMap absorbedBytes).length % s.rate.toNat < s.rate.toNat := Nat.mod_lt _ h1
  refine ⟨_, runs_absorbs is his he hp hr habsorb, rfl, ?_, rfl⟩
  exact (BitVec.toNat_ofNat _ _).trans (Nat.mod_eq_of_lt (by omega))

end Sys2Proof.Machine
end

section
/-! PROOFS. The bytes squeezed by any list of counts (spec/41_sponge.md R230, R232, R233, R234): squeezing a sum of counts
is squeezing one after the other. -/

namespace Sys2Proof.Machine

theorem squeezeSteps_succ_ok {n : Nat} {s t : State} {bs : List Byte} :
    squeezeSteps (n + 1) s = .ok (bs, t) ↔
      ∃ b cs u, squeezeStep s = .ok (b, u) ∧ squeezeSteps n u = .ok (cs, t) ∧ bs = b :: cs := by
  constructor
  · intro h
    rw [squeezeSteps] at h
    split at h
    · rename_i b u hu
      split at h
      · rename_i cs v hv
        cases h
        exact ⟨b, cs, u, hu, hv, rfl⟩
      · cases h
    · cases h
  · rintro ⟨b, cs, u, hu, hv, rfl⟩
    rw [squeezeSteps, hu]
    simp only [hv]

/-- Squeezing `n + m` bytes answers exactly where squeezing `n` and then `m` does, with the bytes of both in order. -/
theorem squeezeSteps_add_ok (n m : Nat) :
    ∀ {s t : State} {bs : List Byte}, squeezeSteps (n + m) s = .ok (bs, t) ↔
      ∃ cs ds u, squeezeSteps n s = .ok (cs, u) ∧ squeezeSteps m u = .ok (ds, t) ∧ bs = cs ++ ds := by
  induction n with
  | zero =>
    intro s t bs
    rw [Nat.zero_add]
    constructor
    · exact fun h => ⟨[], bs, s, rfl, h, rfl⟩
    · rintro ⟨cs, ds, u, hu, hv, rfl⟩
      cases hu
      exact hv
  | succ n ih =>
    intro s t bs
    rw [Nat.succ_add, squeezeSteps_succ_ok]
    constructor
    · rintro ⟨b, _, v, hv, hrest, rfl⟩
      obtain ⟨cs, ds, u, hu, ht, rfl⟩ := ih.1 hrest
      exact ⟨b :: cs, ds, u, squeezeSteps_succ_ok.2 ⟨b, cs, v, hv, hu, rfl⟩, ht, rfl⟩
    · rintro ⟨_, ds, u, hu, ht, rfl⟩
      obtain ⟨b, cs, v, hv, hcs, rfl⟩ := squeezeSteps_succ_ok.1 hu
      exact ⟨b, cs ++ ds, v, hv, ih.2 ⟨cs, ds, u, hcs, ht, rfl⟩, rfl⟩

theorem squeezeSteps_length (n : Nat) :
    ∀ {s t : State} {bs : List Byte}, squeezeSteps n s = .ok (bs, t) → bs.length = n := by
  induction n with
  | zero => intro s t bs h; cases h; rfl
  | succ n ih =>
    intro s t bs h
    obtain ⟨b, cs, u, -, hcs, rfl⟩ := squeezeSteps_succ_ok.1 h
    rw [List.length_cons, ih hcs]

/-- Where one squeeze of a total answers, squeezes of any counts with that total answer the same. -/
theorem squeezeEach_of_sum (ns : List Nat) :
    ∀ {s t : State} {bs : List Byte}, squeezeSteps ns.sum s = .ok (bs, t) → squeezeEach ns s = .ok (bs, t) := by
  induction ns with
  | nil => intro s t bs h; exact h
  | cons n ns ih =>
    intro s t bs h
    rw [List.sum_cons] at h
    obtain ⟨cs, ds, u, hu, ht, rfl⟩ := (squeezeSteps_add_ok n ns.sum).1 h
    rw [squeezeEach, hu]
    simp only [ih ht]

/-- Settles O41: one squeeze of the total reads the output stream, and the counts one after another answer the same. -/
theorem outputStreamIsTheSpongeStream : Obligations.OutputStreamIsTheSpongeStream := by
  unfold Obligations.OutputStreamIsTheSpongeStream
  intro ns s P hg h1 h200 hoff hlanes
  have hsteps := squeezeSteps_ok h1 h200 ns.sum s hg rfl (by simp [hoff])
  have hbytes : (squeezeFrom s.rate.toNat ns.sum (s.lanes, s.offset.toNat)).1 =
      (List.range ns.sum).map (streamByte s.rate.toNat P) := by
    rw [hlanes, hoff, List.range_eq_range']
    simpa [keccakPow] using squeezeFrom_stream h1 P ns.sum 0 0 (Nat.zero_le _)
  rw [hbytes] at hsteps
  exact ⟨_, hsteps, squeezeEach_of_sum ns hsteps⟩

/-- Settles O42: the longer squeeze is one of `n` bytes and one of the rest. -/
theorem squeezePrefix : Obligations.SqueezePrefix := by
  unfold Obligations.SqueezePrefix
  intro n m s bs t hnm h
  obtain ⟨k, rfl⟩ := Nat.exists_eq_add_of_le hnm
  obtain ⟨cs, ds, u, hu, -, rfl⟩ := (squeezeSteps_add_ok n k).1 h
  exact ⟨u, by rw [List.take_left' (squeezeSteps_length n hu), hu]⟩

/-- Bytes squeezed from what is left of a block leave the lanes as they are and advance `OFFSET` by their number. -/
theorem squeezeSteps_inside_block (n : Nat) :
    ∀ {s t : State} {bs : List Byte}, s.offset.toNat + n ≤ s.rate.toNat → squeezeSteps n s = .ok (bs, t) →
      t.lanes = s.lanes ∧ t.offset.toNat = s.offset.toNat + n := by
  induction n with
  | zero => intro s t bs _ h; cases h; exact ⟨rfl, rfl⟩
  | succ n ih =>
    intro s t bs hle h
    obtain ⟨b, cs, u, hu, hcs, -⟩ := squeezeSteps_succ_ok.1 h
    have hmore : s.offset.toNat ≠ s.rate.toNat := by omega
    have hlanes : u.lanes = s.lanes := by
      rw [(squeezeStep_lanes hu).1, if_neg fun heq => hmore (congrArg BitVec.toNat heq)]
    have hoff : u.offset.toNat = s.offset.toNat + 1 := by rw [squeezeStep_offset hu, if_neg hmore]
    have hframe : u = _ := squeezeStep_frame hu
    have hrate : u.rate = s.rate := by rw [hframe]
    obtain ⟨htl, hto⟩ := ih (by rw [hoff, hrate]; omega) hcs
    exact ⟨htl.trans hlanes, by omega⟩

/-- Settles O43: an error changes none of these; within the limit the bytes are left in the first block. -/
theorem fixedDigestsNeverPermuteAgain : Obligations.FixedDigestsNeverPermuteAgain := by
  unfold Obligations.FixedDigestsNeverPermuteAgain
  intro n s t _ hlim hrate hcnt hle h
  obtain ⟨d, c, e1, e2, e3, -, rfl⟩ | ⟨-, -, hwithin, bs, u, hu, rfl⟩ := exec_effect h
  · exact ⟨rfl, hcnt, hle⟩
  · have hlimit : s.sqcnt.toNat + n.toNat ≤ s.outlim.toNat := hwithin.resolve_left hlim
    rw [hcnt] at hlimit
    obtain ⟨hlanes, hoff⟩ := squeezeSteps_inside_block n.toNat (by omega) hu
    have hframe : u = _ := squeezeSteps_frame hu
    have hout : u.outlim = s.outlim := by rw [hframe]
    have hsq : u.sqcnt = s.offset := by rw [hframe, ← hcnt]
    have hcount : (u.countOutput n).sqcnt = s.offset + n := by
      rw [State.countOutput_sqcnt, hout, if_neg hlim, hsq]
    have hadd : (s.offset + n).toNat = s.offset.toNat + n.toNat := by
      rw [BitVec.toNat_add]
      omega
    simp only [State.respond_lanes, State.respond_sqcnt, State.respond_offset, State.respond_outlim,
      State.countOutput_lanes, State.countOutput_offset, State.countOutput_outlim, hcount, hout]
    exact ⟨hlanes, BitVec.eq_of_toNat_eq (hadd.trans hoff.symm), hadd ▸ hlimit⟩

end Sys2Proof.Machine
end

section
/-! PROOFS. The commands of the sponge controller one at a time (spec/41_sponge.md R203, R204, R210, R211, R220, R221,
R230, R231): the errors of each in their order, and the state each leaves where it completes. -/

namespace Sys2Proof.Machine

/-! ### INIT_VARIANT and INIT_CUSTOM -/

/-- The rows of the variant ROM with their ids (R201). -/
def variantRows : List (Byte × Byte × Byte × Byte) :=
  [(0#8, 168#8, 0x1F#8, 0#8), (1#8, 136#8, 0x1F#8, 0#8), (2#8, 144#8, 0x01#8, 28#8), (3#8, 136#8, 0x01#8, 32#8),
   (4#8, 104#8, 0x01#8, 48#8), (5#8, 72#8, 0x01#8, 64#8), (6#8, 144#8, 0x06#8, 28#8), (7#8, 136#8, 0x06#8, 32#8),
   (8#8, 104#8, 0x06#8, 48#8), (9#8, 72#8, 0x06#8, 64#8)]

theorem variantRom_of_row {id rate delim outlim : Byte} (h : (id, rate, delim, outlim) ∈ variantRows) :
    variantRom id = some { rate := rate, delim := delim, outlim := outlim } := by
  have hrows : ∀ r ∈ variantRows, variantRom r.1 = some { rate := r.2.1, delim := r.2.2.1, outlim := r.2.2.2 } := by
    simp [variantRows, variantRom, variantTable]
  exact hrows _ h

/-- The ROM ends at id 9 (R203). -/
theorem variantRom_of_gt {id : Byte} (h : 9 < id.toNat) : variantRom id = none :=
  List.getElem?_eq_none (l := variantTable) h

theorem exec_initVariant_refused {id : Byte} {s : State} (he : s.err = false) (h : 9 < id.toNat) :
    exec (.initVariant id) s = .next (afterError s 0x03#8 0x10#8) := by
  simp only [exec, execInitVariant, State.unlocked_of_no_err he, variantRom_of_gt h]
  exact raising_of_no_err he .badOperand .initVariant

/-- Settles O18: each listed row is the ROM's row of its id, and the ROM has none above id 9. -/
theorem initVariantConstructs : Obligations.InitVariantConstructs := by
  unfold Obligations.InitVariantConstructs
  exact ⟨fun id rate delim outlim s he hrow => exec_initVariant_constructs he (variantRom_of_row hrow),
    fun id s he h => exec_initVariant_refused he h⟩

/-- Settles O19: the operand check fails exactly for the rates outside 1 to 200. -/
theorem initCustomConstructs : Obligations.InitCustomConstructs := by
  unfold Obligations.InitCustomConstructs
  intro delim rate s he
  simp only [exec, execInitCustom, State.unlocked_of_no_err he]
  refine ⟨fun h1 h200 => ?legal, fun h => ?refused⟩
  case legal =>
    rw [if_neg (by omega)]
    rfl
  case refused =>
    rw [if_pos (by omega)]
    exact raising_of_no_err he .badOperand .initCustom

/-! ### ABSORB_BYTE -/

/-- ABSORB_BYTE outside ABSORB is an error (R211). -/
theorem exec_absorbByte_refused {s : State} (he : s.err = false) (b : Byte) :
    (s.phase = .idle → exec (.absorbByte b) s = .next (afterError s 0x04#8 0x20#8)) ∧
    (s.phase = .squeeze → exec (.absorbByte b) s = .next (afterError s 0x05#8 0x20#8)) := by
  simp only [exec, execAbsorbByte, State.unlocked_of_no_err he, raising_of_no_err he]
  refine ⟨fun hp => ?idle, fun hp => ?squeeze⟩
  case idle => rw [hp]; rfl
  case squeeze => rw [hp]; rfl

/-- ABSORB_BYTE inside a block: the byte XORed in, and the block advanced (R210). -/
theorem exec_absorbByte_absorbs {s : State} (he : s.err = false) (hp : s.phase = .absorb) (hb : InBlock s) (b : Byte) :
    exec (.absorbByte b) s =
      .next (State.respond { s with lanes := Lanes.xorByte s.lanes s.offset.toNat b }.blockAdvance 0#64) := by
  obtain ⟨-, h200, hlt⟩ := hb
  exact exec_isAbsorb rfl he hp ((absorbSteps_singleton b s).trans (absorbStep_ok b (by omega)))

/-- Settles O20: advancing permutes exactly the block whose last byte this is. -/
theorem absorbByteAbsorbs : Obligations.AbsorbByteAbsorbs := by
  unfold Obligations.AbsorbByteAbsorbs
  intro b s he hg
  obtain ⟨hidle, hsqueeze⟩ := exec_absorbByte_refused he b
  refine ⟨hidle, hsqueeze, fun hp hb hlt => ?inside, fun hp hb hlast => ?fills⟩
  case inside =>
    have hnot : ¬ s.offset + 1#8 = s.rate := fun h => Nat.ne_of_lt hlt (hb.fills_iff.1 h)
    have hnext : s.offset + 1#8 = BitVec.ofNat 8 (s.offset.toNat + 1) := BitVec.add_def _ _
    rw [exec_absorbByte_absorbs he hp hb, State.blockAdvance_eq, if_neg hnot, hnext]
    rfl
  case fills =>
    rw [exec_absorbByte_absorbs he hp hb, State.blockAdvance_eq, if_pos (hb.fills_iff.2 hlast), ← hg]
    rfl

/-! ### FINALIZE -/

/-- FINALIZE outside ABSORB is an error (R221). -/
theorem exec_finalize_refused {s : State} (he : s.err = false) :
    (s.phase = .idle → exec .finalize s = .next (afterError s 0x04#8 0x28#8)) ∧
    (s.phase = .squeeze → exec .finalize s = .next (afterError s 0x07#8 0x28#8)) := by
  simp only [exec, execFinalize, State.unlocked_of_no_err he, raising_of_no_err he]
  refine ⟨fun hp => ?idle, fun hp => ?squeeze⟩
  case idle => rw [hp]; rfl
  case squeeze => rw [hp]; rfl

/-- Settles O22: inside a block both pad bytes exist, and the permutation leaves an idle engine idle. -/
theorem finalizePadsAndPermutes : Obligations.FinalizePadsAndPermutes := by
  unfold Obligations.FinalizePadsAndPermutes
  intro s he hg
  obtain ⟨hidle, hsqueeze⟩ := exec_finalize_refused he
  refine ⟨hidle, hsqueeze, fun hp hb => ?_⟩
  obtain ⟨h1, h200, hlt⟩ := hb
  rw [exec_finalize_of_pad he hp (pad_ok (by omega) h1 h200), State.enterSqueeze, State.keccakF_eq, ← hg]
  rfl

/-! ### SQUEEZE_N -/

/-- SQUEEZE_N outside SQUEEZE is an error whatever its count; in SQUEEZE a count above 8 is one, and then a count past the
output limit (R231). -/
theorem exec_squeezeN_refused {s : State} (he : s.err = false) (n : Byte) :
    (s.phase = .idle → exec (.squeezeN n) s = .next (afterError s 0x04#8 0x30#8)) ∧
    (s.phase = .absorb → exec (.squeezeN n) s = .next (afterError s 0x06#8 0x30#8)) ∧
    (s.phase = .squeeze → 8 < n.toNat → exec (.squeezeN n) s = .next (afterError s 0x03#8 0x30#8)) ∧
    (s.phase = .squeeze → n.toNat ≤ 8 → s.outlim ≠ 0#8 → s.outlim.toNat < s.sqcnt.toNat + n.toNat →
      exec (.squeezeN n) s = .next (afterError s 0x08#8 0x30#8)) := by
  simp only [exec, execSqueezeN, State.unlocked_of_no_err he, raising_of_no_err he]
  refine ⟨fun hp => ?idle, fun hp => ?absorb, fun hp hn => ?count, fun hp hn hlim hpast => ?limit⟩
  case idle => rw [hp]; rfl
  case absorb => rw [hp]; rfl
  case count => rw [hp]; simp only [if_pos hn]; rfl
  case limit => rw [hp]; simp only [if_neg (Nat.not_lt.2 hn), if_pos (And.intro hlim hpast)]; rfl

/-- Counting output advances `SQCNT` where there is a limit and changes nothing else (R38). -/
theorem State.countOutput_eq (s : State) (n : Byte) :
    s.countOutput n =
      { s with sqcnt := if s.outlim = 0#8 then s.sqcnt else BitVec.ofNat 8 (s.sqcnt.toNat + n.toNat) } := by
  unfold State.countOutput
  split
  · rfl
  · rw [BitVec.add_def]

/-- Settles O23: the refusals in their order; otherwise the response packs the bytes squeezed, and the output is
counted. -/
theorem squeezeNProducesBytes : Obligations.SqueezeNProducesBytes := by
  unfold Obligations.SqueezeNProducesBytes
  intro n s he hg
  obtain ⟨hidle, habsorb, hcount, hpast⟩ := exec_squeezeN_refused he n
  refine ⟨hidle, habsorb, hcount, hpast, fun hp hn hl ho => ⟨_, ?_, fun k hk => laneByte_packBytes _ hk⟩⟩
  rw [exec_squeezeN_squeezes he hg hp hn hl ho, State.countOutput_eq]

end Sys2Proof.Machine
end

section
/-! PROOFS. NOP (spec/42_control.md R260, spec/60_exceptions.md R304): `respond` alone, with no look at the lock. -/

namespace Sys2Proof.Machine

/-- Answering a word changes the pending response alone, whose code is 0 (R13, R104). -/
theorem State.respond_eq_afterResponse (s : State) (d : Word64) : s.respond d = afterResponse s d := rfl

/-- NOP answers 0, while `ERR = 1` too. -/
theorem exec_nop (s : State) : exec .nop s = .next (s.respond 0#64) := rfl

/-- Settles O13: NOP is `respond` of 0, which leaves every other field as it was. -/
theorem nopCompletes : Obligations.NopCompletes := by
  unfold Obligations.NopCompletes
  intro s
  rw [exec_nop, State.respond_eq_afterResponse]

end Sys2Proof.Machine
end

section
/-! PROOFS. What a command reports (spec/60_exceptions.md R301, R302, R303): behind the lock LOCKED, and with a code other
than 0 nothing but the response and, for the first error, the latch. -/

namespace Sys2Proof.Machine

/-! ### The lock -/

/-- While `ERR = 1` a command that the lock holds back answers LOCKED (R303). -/
theorem exec_of_err {i : Instr} {s : State} (he : s.err = true) (hi : ¬ passesLock i.op) :
    exec i s = .next (s.answer 0#64 codeLocked) := by
  cases i with
  | nop | clear | readStatus => simp [Instr.op] at hi
  | readCtx | setCtx | initVariant | initCustom | absorbByte | absorbN | finalize | squeezeN | permute | laneWrite
  | laneRead => exact State.unlocked_of_err he _

/-- Settles O27: `answer` changes the pending response alone. -/
theorem lockedCommandsDoNothing : Obligations.LockedCommandsDoNothing := by
  unfold Obligations.LockedCommandsDoNothing
  intro i s he hnop hclear hstatus
  exact exec_of_err he (by simp [passesLock, hnop, hclear, hstatus])

/-! ### Reporting an error -/

/-- A command of this `OP` field has reported this code: while `ERR = 1` by its response alone, as the first error with
the latch (R301). -/
def Reported (s t : State) (code op : Byte) : Prop :=
  (s.err = true ∧ t = s.answer 0#64 code) ∨ (s.err = false ∧ t = afterError s code op)

theorem State.raise_reported (s : State) (e : ErrorCode) (op : Byte) : Reported s (s.raise e op) e.code op := by
  cases he : s.err
  · exact .inr ⟨he, State.raise_of_no_err he e op⟩
  · exact .inl ⟨he, State.raise_of_err he e op⟩

/-- The pending response of a report is 0 with the code. -/
theorem Reported.rsp {s t : State} {code op : Byte} (h : Reported s t code op) :
    t.rsp = some { data := 0#64, code := code } := by
  obtain ⟨-, rfl⟩ | ⟨-, rfl⟩ := h <;> rfl

/-- A report changes nothing but the latch and the response (R302). -/
theorem Reported.frame {s t : State} {code op : Byte} (h : Reported s t code op) :
    t = { s with err := t.err, errcode := t.errcode, errop := t.errop, rsp := t.rsp } := by
  obtain ⟨-, rfl⟩ | ⟨-, rfl⟩ := h <;> rfl

/-- A command whose response has a code other than 0 has reported some code, under its own opcode. -/
theorem exec_reported {i : Instr} {s t : State} {r : Response} (h : exec i s = .next t) (hr : t.rsp = some r)
    (hc : r.code ≠ codeNone) : ∃ code, Reported s t code i.op.code := by
  obtain ⟨he, -, rfl⟩ | ⟨-, e, rfl⟩ | ⟨-, u, d, rfl, -, -⟩ := exec_ended h
  · exact ⟨_, .inl ⟨he, rfl⟩⟩
  · exact ⟨_, State.raise_reported s e i.op.code⟩
  · cases hr
    exact absurd rfl hc

/-- The same for a command word: a decode error, too, is reported under the word's `OP` field (R108, R301). -/
theorem runCommand_reported {c : Command} {s t : State} {r : Response} (h : runCommand c s = .next t)
    (hr : t.rsp = some r) (hc : r.code ≠ codeNone) : ∃ code, Reported s t code c.op := by
  obtain ⟨e, -, rfl⟩ | ⟨i, hd, hi⟩ := runCommand_next h
  · exact ⟨_, State.raise_reported s _ c.op⟩
  · rw [← decode_op hd]
    exact exec_reported hi hr hc

/-! ### The obligations -/

/-- Settles O28: the frame of a report. -/
theorem errorsAreAllOrNothing : Obligations.ErrorsAreAllOrNothing := by
  unfold Obligations.ErrorsAreAllOrNothing
  intro c s t r h hr hc
  obtain ⟨code, hrep⟩ := runCommand_reported h hr hc
  rw [← hr]
  exact hrep.frame

/-- Settles O29: the two cases of a report, by `ERR` before the command. -/
theorem firstErrorIsLatched : Obligations.FirstErrorIsLatched := by
  unfold Obligations.FirstErrorIsLatched
  intro c s t r h hr hc
  obtain ⟨code, hrep⟩ := runCommand_reported h hr hc
  obtain rfl : { data := 0#64, code := code } = r := Option.some.inj (hrep.rsp.symm.trans hr)
  obtain ⟨he, rfl⟩ | ⟨he, rfl⟩ := hrep
  · exact ⟨rfl, by simp [he], fun _ => ⟨he, rfl, rfl⟩⟩
  · exact ⟨rfl, fun _ => ⟨rfl, rfl, rfl⟩, by simp [he]⟩

end Sys2Proof.Machine
end

section
/-! PROOFS. A step with `rst = 1` (spec/70_reset_and_hazards.md R341, with the reset values of R340). -/

namespace Sys2Proof.Machine

/-- With `rst = 1` a step clears the core, whatever the engine is doing and whatever response is pending (R341). -/
theorem step_of_rst {s : State} (h : s.host.rst = true) : step s = .next s.cleared := by
  simp [step, portStep, h]

/-- Settles O10: a cleared core is at its reset values with no response pending, and clearing leaves the host's side. -/
theorem resetAbandonsWhatIsInFlight : Obligations.ResetAbandonsWhatIsInFlight := by
  unfold Obligations.ResetAbandonsWhatIsInFlight
  intro s h
  exact ⟨s.cleared, step_of_rst h, atResetValues_cleared s, s.cleared_rsp, s.cleared_host⟩

end Sys2Proof.Machine
end
